-- ==== Sys2Proof/Word.lean ====
section
/-!
DEFINITION. Bytes, request words and packets (00_scope.md R11, R12; 30_encoding.md R70, R80).
-/

namespace Sys2Proof

/-- R11: an unsigned 8-bit value; its arithmetic wraps modulo 256. -/
abbrev Byte := BitVec 8

/-- R11, R80: the `u16` of a request word and of the status word. -/
abbrev Word := BitVec 16

/-- R70: a packet is exactly nine bytes, in wire (index) order. -/
abbrev Packet := Vector Byte 9

/-- R100: the seven interior bytes of a packet, its bytes 1 to 7 in index order; also the seven bytes
that follow the two header bytes of a response (R73). -/
abbrev Seven := Vector Byte 7

end Sys2Proof
end

