-- ==== Sys2Proof/Config.lean ====
section
/-!
DEFINITION. The implementation parameters (00_scope.md section 3, R5 to R10) and the two
constants among them. No operation changes a parameter; claims may quantify over every value of `Config`.
-/

namespace Sys2Proof

/-- R5: `PAYLOAD_SIZE`. -/
def payloadSize : Nat := 9

/-- R6: `MARKER`, the start-marker byte. -/
def marker : Byte := 0xFF

/-- R9: `P_RESCAN`. -/
inductive Rescan where
  | full
  | trailing (w : Nat)
  deriving DecidableEq, Repr

/-- R7, R8, R9: the parameters a model takes as an argument, with the spec's defaults. -/
structure Config where
  /-- R7: `SCRATCH_SIZE`, the largest number of bytes one chunk can carry. -/
  scratchSize : Nat := 45
  /-- R8: `P_MARKER_RESET`. -/
  markerReset : Bool := false
  /-- R9: `P_RESCAN`. -/
  rescan : Rescan := .full
  deriving DecidableEq, Repr

/-- R10, 93_implementation_defined.md row 4: which causes there are is an argument of the model. No body,
so nothing in Lean can evaluate it: a claim holds for every choice (log entry 8). -/
opaque Config.isCause : Nat → Bool

/-- R9: a trailing window is at least one byte and at most the scratch buffer. -/
def Config.wellFormed (cfg : Config) : Bool :=
  match cfg.rescan with
  | .full => true
  | .trailing w => decide (1 ≤ w) && decide (w ≤ cfg.scratchSize)

end Sys2Proof
end

