-- ==== Sys2Proof/Syntax.lean ====
section
/-!
DEFINITION. The operations of the block, one constructor for each row of spec/opcode_table.json, and
the items a host presents at the interface (30_encoding.md R80 to R82; 42_host_transaction.md R172).
-/

namespace Sys2Proof

/-- R10: a transport failure reason: a member of the type the model takes as an argument
(`Config.isCause`). DESIGN CHOICE (log entry 8): its members are told apart by a token, so that State
is plain data, and 0 is a member, so that there is one. No meaning inspects the token. -/
structure Cause where
  token : Nat
  legal : token = 0 ∨ Config.isCause token = true
  deriving DecidableEq, Repr

/-- The one cause that every choice of the type has. -/
def Cause.first : Cause := ⟨0, .inl rfl⟩

/-- R74: the two response kinds. -/
inductive Kind where
  | final
  | raw
  deriving DecidableEq, Repr

/-- R82: the twelve operations a request word can name. -/
inductive Op where
  | start | chunk | eof | rderr | cancel | rdstat | rdout
  | cksum | ckval | hdrchk | check | gencmd
  deriving DecidableEq, Repr

/-- R81: what follows a request word. -/
inductive PayloadShape where
  | none
  | bytes (n : Nat)
  | cause
  deriving DecidableEq, Repr

/-- R170: what `read(buffer) -> count_or_error` returned: the bytes read (their count may be zero, the
end of the stream), or a failure. -/
inductive ReadResult where
  | bytes (c : List Byte)
  | error (cause : Cause)
  deriving DecidableEq, Repr

/-- What a host presents at the block's interface, oldest first in `State.inbox`. DESIGN CHOICE (log
entry 2). -/
inductive Item where
  /-- R80: a request word, carried as one 16-bit value. -/
  | word (w : Word)
  /-- R81: a payload byte. -/
  | byte (b : Byte)
  /-- R81: the payload of RDERR. -/
  | cause (c : Cause)
  /-- R172: the result of one stream read, which becomes exactly one request. -/
  | read (r : ReadResult)
  /-- R230: the reset input. -/
  | reset
  deriving DecidableEq, Repr

/-- The operations. A kind operand is the raw `ARG` byte: R83's check of it belongs to the request's
second decision step (R84), after the operation is known. -/
inductive Instr where
  /-- START, R130. -/
  | start
  /-- CHUNK, R131: the chunk in arrival order; `ARG` is its length. -/
  | chunk (c : List Byte)
  /-- EOF, R148. -/
  | eof
  /-- RDERR, R149. -/
  | rderr (cause : Cause)
  /-- CANCEL, R150. -/
  | cancel
  /-- RDSTAT, R146. -/
  | rdstat
  /-- RDOUT, R147. -/
  | rdout
  /-- CKSUM, R100: packet bytes 1 to 7. -/
  | cksum (b : Seven)
  /-- CKVAL, R103. -/
  | ckval (p : Packet)
  /-- HDRCHK, R104. -/
  | hdrchk (k : Byte) (p : Packet)
  /-- CHECK, R106. -/
  | check (k : Byte)
  /-- GENCMD, R108. -/
  | gencmd (k : Byte)
  /-- The READ_CO2 packet, R72, come whole in one stream read (log entry 4). -/
  | readCo2
  /-- The READ_RAW_CO2 packet, R72, come whole in one stream read (log entry 4). -/
  | readRawCo2
  /-- An RSP_FINAL packet, R73, come whole in one stream read: its bytes 2 to 8 (log entry 4). -/
  | rspFinal (tail : Seven)
  /-- An RSP_RAW packet, R73, come whole in one stream read: its bytes 2 to 8 (log entry 4). -/
  | rspRaw (tail : Seven)
  deriving DecidableEq, Repr

end Sys2Proof
end

