-- ==== Sys2Proof/Machine/Operands.lean ====
section
/-!
DEFINITION. Operand forms and the byte-level functions the operations share: kinds, slices of a
packet, the packet layouts, the checksum, the header test, the marker search. None reads the machine's
state (40_codec.md: "stateless, pure functions").
-/

namespace Sys2Proof.Machine

/-- R74: the value of a kind is the discriminator itself. -/
def kindCode : Kind → Byte
  | .final => 0x86
  | .raw => 0x85

/-- R74, R83: every other value of a kind operand is reserved. -/
def kindOfByte? (k : Byte) : Option Kind :=
  if k = kindCode .final then some .final
  else if k = kindCode .raw then some .raw
  else none

/-- A list of exactly `n` bytes, as an `n`-byte operand. -/
def exactly? (n : Nat) (l : List Byte) : Option (Vector Byte n) :=
  if h : l.length = n then some ⟨l.toArray, by simpa using h⟩ else none

/-- R12: `p[1..<8]`, the seven interior bytes of a packet. -/
def interiorBytes (p : Packet) : Seven := #v[p[1], p[2], p[3], p[4], p[5], p[6], p[7]]

/-- R54: the value of a big-endian 16-bit field. No operation of the block assembles one. -/
def be16 (hi lo : Byte) : Nat := hi.toNat * 256 + lo.toNat

/-- R54, R75: the 16-bit field of a packet at byte positions `(i, i+1)`. -/
def field16 (p : Packet) (i : Fin 8) : Nat := be16 p[i.val] p[i.val + 1]

/-- R11: the sum of bytes modulo 256. -/
def sumBytes : List Byte → Byte
  | [] => 0
  | b :: t => b + sumBytes t

/-- R100, R101(a): complement, then add 1, modulo 256. -/
def complementPlusOne (x : Byte) : Byte := ~~~x + 1

/-- R100: the checksum generator. -/
def checksum (b : Seven) : Byte := complementPlusOne (sumBytes b.toList)

/-- R103: the checksum validator. It does not read byte 0. -/
def checksumValid (p : Packet) : Bool := checksum (interiorBytes p) == p[8]

/-- R104: the header test. It reads bytes 0 and 1 only. -/
def headerValid (p : Packet) (k : Kind) : Bool := p[0] == marker && p[1] == kindCode k

/-- R71: packet validity, which does not involve the discriminator. -/
def packetValid (p : Packet) : Bool := p[0] == marker && checksumValid p

/-- R30, R72: the constant READ_CO2. -/
def readCo2Packet : Packet := #v[0xFF, 0x01, 0x86, 0x00, 0x00, 0x00, 0x00, 0x00, 0x79]

/-- R30, R72: the constant READ_RAW_CO2. -/
def readRawCo2Packet : Packet := #v[0xFF, 0x01, 0x85, 0x00, 0x00, 0x00, 0x00, 0x00, 0x7A]

/-- R70, R73: the response packet of a kind, from its bytes 2 to 8. -/
def responsePacket (k : Kind) (t : Seven) : Packet :=
  #v[marker, kindCode k, t[0], t[1], t[2], t[3], t[4], t[5], t[6]]

/-- R78: the number of a packet in opcode_table.json, `Σ p[i] × 256^(8-i)`. -/
def packetNumber (p : Packet) : Nat := p.toList.foldl (fun n b => n * 256 + b.toNat) 0

/-- R78: the packet of a number, byte 0 from bits 71 to 64. -/
def packetOfNumber (w : Nat) : Packet := Vector.ofFn fun i => BitVec.ofNat 8 (w >>> (8 * (8 - i.val)))

/-- R12: the search of `LastIndexOf` over the suffix that begins at index `i`. -/
def lastIndexFrom (v : Byte) (lo : Nat) : Nat → List Byte → Option Nat
  | _, [] => none
  | i, b :: t =>
    match lastIndexFrom v lo (i + 1) t with
    | some j => some j
    | none => if lo ≤ i ∧ b = v then some i else none

/-- R12: `LastIndexOf(s, v, lo)`, the largest index `i` with `lo ≤ i < len(s)` and `s[i] = v`. -/
def lastIndexOf (s : List Byte) (v : Byte) (lo : Nat) : Option Nat := lastIndexFrom v lo 0 s

end Sys2Proof.Machine
end

