-- ==== Sys2Proof/WellFormed.lean ====
section
/-!
DEFINITION. Well-formed operations: the argument checks of 30_encoding.md R83, and what R73 and the
opcode table ask of a response packet's last byte. `Instr` itself already fixes every width of R81
except a chunk's.
-/

namespace Sys2Proof

open Machine in
/-- R83 (chunk length, and the eight bits of `ARG` that must hold it; kinds); R73 with R103 (the
checksum byte of a response packet). -/
def Instr.wellFormed (cfg : Config) : Instr → Bool
  | .start => true
  | .chunk c => decide (1 ≤ c.length) && decide (c.length ≤ cfg.scratchSize) && decide (c.length < 256)
  | .eof => true
  | .rderr _ => true
  | .cancel => true
  | .rdstat => true
  | .rdout => true
  | .cksum _ => true
  | .ckval _ => true
  | .hdrchk k _ => (kindOfByte? k).isSome
  | .check k => (kindOfByte? k).isSome
  | .gencmd k => (kindOfByte? k).isSome
  | .readCo2 => true
  | .readRawCo2 => true
  | .rspFinal t => checksumValid (responsePacket .final t)
  | .rspRaw t => checksumValid (responsePacket .raw t)

end Sys2Proof
end

