-- ==== Sys2Proof/Decode.lean ====
section
/-!
DEFINITION. Decoding and encoding of what a host presents (30_encoding.md R78 to R86;
42_host_transaction.md R172), and the opcode table's words as the host numbers them.
-/

namespace Sys2Proof

open Machine (kindCode exactly? readCo2Packet readRawCo2Packet responsePacket packetOfNumber)

/-- R82: the operation codes. -/
def opCode : Op → Byte
  | .start => 0x01
  | .chunk => 0x02
  | .eof => 0x03
  | .rderr => 0x04
  | .cancel => 0x05
  | .rdstat => 0x06
  | .rdout => 0x07
  | .cksum => 0x10
  | .ckval => 0x11
  | .hdrchk => 0x12
  | .check => 0x13
  | .gencmd => 0x20

/-- R82, R85: the operation of a code; every code not in R82's map is reserved. -/
def opOfCode? (b : Byte) : Option Op :=
  match b.toNat with
  | 0x01 => some .start
  | 0x02 => some .chunk
  | 0x03 => some .eof
  | 0x04 => some .rderr
  | 0x05 => some .cancel
  | 0x06 => some .rdstat
  | 0x07 => some .rdout
  | 0x10 => some .cksum
  | 0x11 => some .ckval
  | 0x12 => some .hdrchk
  | 0x13 => some .check
  | 0x20 => some .gencmd
  | _ => none

/-- R82, R83: the operations that take an argument. -/
def opTakesArg : Op → Bool
  | .chunk | .hdrchk | .check | .gencmd => true
  | .start | .eof | .rderr | .cancel | .rdstat | .rdout | .cksum | .ckval => false

/-- R81: `OP` and `ARG` alone decide the payload. -/
def payloadShape : Op → Byte → PayloadShape
  | .chunk, arg => .bytes arg.toNat
  | .rderr, _ => .cause
  | .cksum, _ => .bytes 7
  | .ckval, _ => .bytes 9
  | .hdrchk, _ => .bytes 9
  | .start, _ => .none
  | .eof, _ => .none
  | .cancel, _ => .none
  | .rdstat, _ => .none
  | .rdout, _ => .none
  | .check, _ => .none
  | .gencmd, _ => .none

/-- R80: the request word of an operation code and an argument. -/
def requestWord (op : Op) (arg : Byte) : Word := arg ++ opCode op

/-- R80: `OP`, bits 7 to 0. -/
def wordOp (w : Word) : Byte := w.extractLsb' 0 8

/-- R80: `ARG`, bits 15 to 8. -/
def wordArg (w : Word) : Byte := w.extractLsb' 8 8

/-- Why the decoder rejects what it was given. -/
inductive DecodeError where
  /-- R85: a reserved `OP`. -/
  | badOpcode
  /-- R83: `ARG ≠ 0` where the operation takes none. -/
  | badArg
  /-- An item that R80 and R81 do not describe at its place (log entry 5). -/
  | malformedPayload
  deriving DecidableEq, Repr

/-- R84 step 1, and that part of step 2 that concerns operations without an argument. -/
def decodeWord (w : Word) : Except DecodeError (Op × Byte) :=
  match opOfCode? (wordOp w) with
  | none => .error .badOpcode
  | some op => if opTakesArg op = false ∧ wordArg w ≠ 0 then .error .badArg else .ok (op, wordArg w)

/-- A payload as it is collected from the items that follow a request word. -/
inductive Gathered (α : Type) where
  /-- The payload is whole. -/
  | got (a : α) (rest : List Item)
  /-- R230: the reset input came first. -/
  | resetBy (rest : List Item)
  /-- R80: the request is not complete yet. -/
  | incomplete
  /-- An item that is no part of this payload came first. -/
  | malformed
  deriving DecidableEq, Repr

/-- R81: `n` payload bytes, in index (arrival) order. -/
def takeBytes : Nat → List Item → Gathered (List Byte)
  | 0, items => .got [] items
  | _ + 1, [] => .incomplete
  | n + 1, .byte b :: rest =>
    match takeBytes n rest with
    | .got bs r => .got (b :: bs) r
    | other => other
  | _ + 1, .reset :: rest => .resetBy rest
  | _ + 1, .word _ :: _ => .malformed
  | _ + 1, .cause _ :: _ => .malformed
  | _ + 1, .read _ :: _ => .malformed

/-- R81: the one `Cause` value that follows RDERR. -/
def takeCause : List Item → Gathered Cause
  | [] => .incomplete
  | .cause c :: rest => .got c rest
  | .reset :: rest => .resetBy rest
  | .word _ :: _ => .malformed
  | .byte _ :: _ => .malformed
  | .read _ :: _ => .malformed

/-- R82: the operation without a payload, from its code and argument. -/
def bareInstr : Op → Byte → Option Instr
  | .start, _ => some .start
  | .eof, _ => some .eof
  | .cancel, _ => some .cancel
  | .rdstat, _ => some .rdstat
  | .rdout, _ => some .rdout
  | .check, arg => some (.check arg)
  | .gencmd, arg => some (.gencmd arg)
  | .chunk, _ => none
  | .rderr, _ => none
  | .cksum, _ => none
  | .ckval, _ => none
  | .hdrchk, _ => none

/-- R82: the operation with a byte payload, from its code, argument and payload. -/
def bytesInstr (op : Op) (arg : Byte) (bs : List Byte) : Option Instr :=
  match op with
  | .chunk => some (.chunk bs)
  | .cksum => (exactly? 7 bs).map .cksum
  | .ckval => (exactly? 9 bs).map .ckval
  | .hdrchk => (exactly? 9 bs).map (.hdrchk arg)
  | .start | .eof | .rderr | .cancel | .rdstat | .rdout | .check | .gencmd => none

/-- What stands at the front of the interface. -/
inductive Fetched where
  /-- A complete request, and what stands after it. -/
  | instr (i : Instr) (rest : List Item)
  /-- R230: the reset input, alone or in the middle of a request. -/
  | reset (rest : List Item)
  /-- R238: nothing has been presented. -/
  | idle
  /-- R80: a request that is not complete yet. -/
  | unfinished
  /-- R84: a request that is turned away before its operation is known in full. -/
  | rejected (e : DecodeError)
  deriving DecidableEq, Repr

/-- A decoded operation, or the rejection of a payload that does not belong to it. -/
def Fetched.ofInstr? (i : Option Instr) (rest : List Item) : Fetched :=
  match i with
  | some i => .instr i rest
  | none => .rejected .malformedPayload

/-- R80, R81: the request of an operation code and argument, with its payload from the items after the
request word. -/
def decodeRequest (op : Op) (arg : Byte) (rest : List Item) : Fetched :=
  match payloadShape op arg with
  | .none => .ofInstr? (bareInstr op arg) rest
  | .cause =>
    match takeCause rest with
    | .got c r => .instr (.rderr c) r
    | .resetBy r => .reset r
    | .incomplete => .unfinished
    | .malformed => .rejected .malformedPayload
  | .bytes n =>
    match takeBytes n rest with
    | .got bs r => .ofInstr? (bytesInstr op arg bs) r
    | .resetBy r => .reset r
    | .incomplete => .unfinished
    | .malformed => .rejected .malformedPayload

/-- R72, R73, R78: the packet rows of the opcode table; a packet of no row is none of them (R77). -/
def decodePacket (p : Packet) : Option Instr :=
  if p = readCo2Packet then some .readCo2
  else if p = readRawCo2Packet then some .readRawCo2
  else if p[0] = marker ∧ p[1] = kindCode .final then
    some (.rspFinal #v[p[2], p[3], p[4], p[5], p[6], p[7], p[8]])
  else if p[0] = marker ∧ p[1] = kindCode .raw then
    some (.rspRaw #v[p[2], p[3], p[4], p[5], p[6], p[7], p[8]])
  else none

/-- R172: each result of a stream read becomes exactly one request: a count of 0 is EOF, an error is
RDERR, any other count is CHUNK (under the packet row's own name, where the bytes read are exactly a
packet of a row: log entry 4). DESIGN CHOICE (log entry 14): a read of 256 bytes or more, which a SCRATCH_SIZE
above 255 lets in and no `ARG` (R80) can count, becomes a CHUNK as well. -/
def decodeRead : ReadResult → Instr
  | .error c => .rderr c
  | .bytes [] => .eof
  | .bytes (b :: t) =>
    match (exactly? 9 (b :: t)).bind decodePacket with
    | some i => i
    | none => .chunk (b :: t)

/-- The request at the front of the interface. -/
def fetch : List Item → Fetched
  | [] => .idle
  | .reset :: rest => .reset rest
  | .read r :: rest => .instr (decodeRead r) rest
  | .byte _ :: _ => .rejected .malformedPayload
  | .cause _ :: _ => .rejected .malformedPayload
  | .word w :: rest =>
    match decodeWord w with
    | .error e => .rejected e
    | .ok (op, arg) => decodeRequest op arg rest

/-- R81: payload bytes as items. -/
def byteItems (bs : List Byte) : List Item := bs.map .byte

/-- R53, R172: a packet come whole in one stream read. -/
def packetItems (p : Packet) : List Item := [.read (.bytes p.toList)]

/-- R80 to R82: the request of an operation: its word and its payload; for a packet row, the packet. -/
def encode : Instr → List Item
  | .start => [.word (requestWord .start 0)]
  | .chunk c => .word (requestWord .chunk (BitVec.ofNat 8 c.length)) :: byteItems c
  | .eof => [.word (requestWord .eof 0)]
  | .rderr c => [.word (requestWord .rderr 0), .cause c]
  | .cancel => [.word (requestWord .cancel 0)]
  | .rdstat => [.word (requestWord .rdstat 0)]
  | .rdout => [.word (requestWord .rdout 0)]
  | .cksum b => .word (requestWord .cksum 0) :: byteItems b.toList
  | .ckval p => .word (requestWord .ckval 0) :: byteItems p.toList
  | .hdrchk k p => .word (requestWord .hdrchk k) :: byteItems p.toList
  | .check k => [.word (requestWord .check k)]
  | .gencmd k => [.word (requestWord .gencmd k)]
  | .readCo2 => packetItems readCo2Packet
  | .readRawCo2 => packetItems readRawCo2Packet
  | .rspFinal t => packetItems (responsePacket .final t)
  | .rspRaw t => packetItems (responsePacket .raw t)

/-- R81: a payload all of whose bits are 0; RDERR's is a cause, not bits. -/
def zeroPayload : PayloadShape → List Item
  | .none => []
  | .bytes n => byteItems (List.replicate n 0)
  | .cause => [.cause .first]

/-- A word of spec/opcode_table.json as it is presented at the interface: 72 bits are a packet (R78),
anything shorter a request word (R80) with a payload of zeros. -/
def tableItems (nbits w : Nat) : List Item :=
  if nbits = 72 then packetItems (packetOfNumber w)
  else
    let word : Word := BitVec.ofNat 16 w
    match decodeWord word with
    | .ok (op, arg) => .word word :: zeroPayload (payloadShape op arg)
    | .error _ => [.word word]

/-- The instruction the decoder reads from a word of the opcode table. -/
def decodeTableWord (nbits w : Nat) : Option Instr :=
  match fetch (tableItems nbits w) with
  | .instr i _ => some i
  | .reset _ => none
  | .idle => none
  | .unfinished => none
  | .rejected _ => none

end Sys2Proof
end

