-- ==== Sys2Proof/Machine/State.lean ====
section
/-!
DEFINITION. The state of the block (10_state.md), the reasons a step can stop, and the state after
reset (R33).
-/

namespace Sys2Proof.Machine

/-- R21: the phase register's five values. -/
inductive Phase where
  | idle
  | hunt
  | accum
  | complete
  | failed
  deriving DecidableEq, Repr

/-- R200: the six error kinds. -/
inductive ErrorCode where
  | invalidChecksum
  | invalidPacket
  | writingToUart
  | flushingUart
  | readingEOF
  | reading
  deriving DecidableEq, Repr

/-- R28: the error record. -/
structure ErrRecord where
  code : ErrorCode
  cause : Option Cause
  deriving DecidableEq, Repr

/-- R30: the command ROM, two nine-byte constants. -/
structure CommandRom where
  readCo2 : Packet
  readRawCo2 : Packet
  deriving DecidableEq, Repr

/-- R30, R33: what the command ROM holds. -/
def CommandRom.contents : CommandRom := ⟨readCo2Packet, readRawCo2Packet⟩

/-- R212: the closed set of reasons for which a request is refused. -/
inductive RefusalReason where
  | badOpcode
  | badArg
  | badLength
  | badKind
  | badPhase
  deriving DecidableEq, Repr

/-- R87: what `VALUE(v)` carries. -/
inductive Value where
  /-- CKSUM, and the verdict 0 or 1 of CKVAL and HDRCHK. -/
  | byte (b : Byte)
  /-- RDSTAT. -/
  | status (w : Word)
  /-- RDOUT and GENCMD. -/
  | packet (p : Packet)
  deriving DecidableEq, Repr

/-- R87: the responses. -/
inductive Response where
  | wait
  | done (p : Packet)
  | ok
  | value (v : Value)
  | error (code : ErrorCode) (cause : Option Cause)
  | refused (reason : RefusalReason)
  deriving DecidableEq, Repr

/-- The state of the block. -/
structure State where
  /-- R7 to R9: the parameters. No operation changes them (log entry 1). -/
  cfg : Config
  /-- R21: the phase. -/
  phase : Phase
  /-- R23: the candidate buffer (`package`). -/
  cand : List Byte
  /-- R24: the bytes still required to complete the candidate. -/
  needed : Nat
  /-- R26: the completed packet; `none` is the spec's "holds no value". -/
  out : Option Packet
  /-- R28: the error record; `none` is the spec's "holds no value". -/
  err : Option ErrRecord
  /-- R30: the command ROM. -/
  rom : CommandRom
  /-- R80, R230: what the host has presented and the block has not taken yet, oldest first (log
  entry 2). -/
  inbox : List Item
  /-- R14, R87: the response of the last operation performed (log entry 3). -/
  response : Option Response
  deriving DecidableEq, Repr

/-- Why the machine stops. No operation of the spec faults: a framing error is a state (R205). -/
inductive Fault where
  /-- R238: nothing has been presented, and the block waits without limit. Raised by `step`. Safe: the
  block makes no step either. -/
  | awaitingRequest
  /-- R80: the request presented is not complete, and the block waits for the rest of it. Raised by
  `step`. Safe: the block makes no step either. -/
  | awaitingPayload
  /-- R26: `out` holds no value in COMPLETE. Raised by RDOUT and CHECK, in no state that keeps R26.
  Safe: the machine stops. -/
  | outAbsent
  /-- R28: `err` holds no value in FAILED. Raised by RDSTAT, in no state that keeps R28. Safe: the
  machine stops. -/
  | errAbsent
  /-- R25(a): the completed candidate is not nine bytes. Raised by CHUNK and the packet rows, in no
  state that keeps R25. Safe: the machine stops. -/
  | candidateCorrupt
  /-- R142: a third pass of the chunk step's loop. Raised by CHUNK and the packet rows, in no state at
  all. Safe: the machine stops. -/
  | thirdPass
  deriving DecidableEq, Repr

/-- Why a request has no meaning. R212: a refused request changes no state, and no claim may rely on
it as a no-op, so a refusal is no next state. -/
inductive Refusal where
  /-- An operation that has no meaning yet, by the table's mnemonic. Raised by `exec`'s refused arms.
  Safe: the machine stops. -/
  | notModelled (mnemonic : String)
  /-- R85: a reserved `OP`. Raised by `step`. Safe: the spec gives the request no meaning. -/
  | badOpcode
  /-- R83: `ARG ≠ 0` for an operation without an argument. Raised by `step`. Safe, as above. -/
  | badArg
  /-- R83: a chunk of no byte, or of more than `SCRATCH_SIZE`. Raised by CHUNK and the packet rows.
  Safe, as above. -/
  | badLength
  /-- R83: a kind other than 0x86 and 0x85. Raised by HDRCHK, CHECK and GENCMD. Safe, as above. -/
  | badKind
  /-- R212: the operation's phase precondition is unmet. Raised by START, CHUNK, EOF, RDERR, RDOUT,
  CHECK and the packet rows. Safe, as above. -/
  | badPhase
  /-- An item where R80 and R81 describe none: a payload item without a request word, or one of the
  wrong sort inside a payload (log entry 5). Raised by `step`. Safe: the machine stops. -/
  | malformedPayload
  deriving DecidableEq, Repr

/-- R33: the machine right after reset, with the spec's default parameters, nothing presented and no
response given. -/
def State.reset : State where
  cfg := {}
  phase := .idle
  cand := []
  needed := payloadSize
  out := none
  err := none
  rom := CommandRom.contents
  inbox := []
  response := none

end Sys2Proof.Machine
end

