-- ==== Sys2Proof/Machine/Flags.lean ====
section
/-!
DEFINITION. The block has no flags (10_state.md R22). Here stand the numbers the spec gives its phases,
errors and responses, the status word (R29), and the one-byte verdict of the checks.
-/

namespace Sys2Proof.Machine

/-- R21: the number of a phase. -/
def phaseNumber : Phase → BitVec 3
  | .idle => 0
  | .hunt => 1
  | .accum => 2
  | .complete => 3
  | .failed => 4

/-- R200: the number of an error kind, as `err.code` holds it. -/
def errorNumber : ErrorCode → Byte
  | .invalidChecksum => 1
  | .invalidPacket => 2
  | .writingToUart => 3
  | .flushingUart => 4
  | .readingEOF => 5
  | .reading => 6

/-- R87: the code of a response. -/
def responseCode : Response → Byte
  | .wait => 0x00
  | .done _ => 0x01
  | .ok => 0x02
  | .value _ => 0x03
  | .error code _ => 0x80 ||| errorNumber code
  | .refused _ => 0xFF

/-- R29: the status word of its four fields; bit 3 reads 0. -/
def statusFields (phase : BitVec 3) (needed err candLen : BitVec 4) : Word :=
  candLen ++ err ++ needed ++ (0 : BitVec 1) ++ phase

/-- R29: the `ERR` field: `err.code` while FAILED, else 0. In FAILED without an error record (no state
that keeps R28) there is no field to read. -/
def errField? (s : State) : Option (BitVec 4) :=
  match s.phase, s.err with
  | .failed, some e => some ((errorNumber e.code).setWidth 4)
  | .failed, none => none
  | .idle, _ => some 0
  | .hunt, _ => some 0
  | .accum, _ => some 0
  | .complete, _ => some 0

/-- R29: the status word, computed from the state. -/
def statusWord? (s : State) : Option Word :=
  (errField? s).map fun e =>
    statusFields (phaseNumber s.phase) (BitVec.ofNat 4 s.needed) e (BitVec.ofNat 4 s.cand.length)

/-- R103, R104: the byte a Boolean verdict is answered as. -/
def verdict (b : Bool) : Value := .byte (if b then 1 else 0)

end Sys2Proof.Machine
end

