-- ==== Sys2Proof/Machine/Ops.lean ====
section
/-!
DEFINITION. The operations the meanings share: responding, the checks of a request (R83, R84), a fresh
framing (R130, R150, R33), the error entry (60_exceptions.md R205), and the chunk step of 41_framer.md
(R131 to R145).
-/

namespace Sys2Proof.Machine

/-- What an operation answers. -/
abbrev Result := Host.Outcome State Fault Refusal

/-- R14, R16: the operation ends in `s` with its one response. -/
def respond (r : Response) (s : State) : Result := .next { s with response := some r }

/-- R212: the refusal of a request the decoder rejects. -/
def refusalOfDecode : DecodeError → Refusal
  | .badOpcode => .badOpcode
  | .badArg => .badArg
  | .malformedPayload => .malformedPayload

/-- R87, R212: the reason a refusal responds with; none for a stop the spec does not list. -/
def refusalReason? : Refusal → Option RefusalReason
  | .badOpcode => some .badOpcode
  | .badArg => some .badArg
  | .badLength => some .badLength
  | .badKind => some .badKind
  | .badPhase => some .badPhase
  | _ => none

/-- R87: the one response to a request, whether it was performed or refused. -/
def responseOf : Result → Option Response
  | .next s => s.response
  | .fault _ => none
  | .refused r => (refusalReason? r).map .refused

/-- R21: framing is in progress in HUNT and ACCUM only. -/
def framingPhase : Phase → Bool
  | .hunt | .accum => true
  | .idle | .complete | .failed => false

/-- R84 step 3: the phase precondition. -/
def requirePhase (legal : Bool) (k : Result) : Result := if legal then k else .refused .badPhase

/-- R83, R84 step 2: the check of a kind operand. -/
def requireKind (k : Byte) (f : Kind → Result) : Result :=
  match kindOfByte? k with
  | some kind => f kind
  | none => .refused .badKind

/-- R83, R133, R84 step 2: the check of a chunk's length. -/
def requireLength (s : State) (c : List Byte) (k : Result) : Result :=
  if c.length = 0 ∨ s.cfg.scratchSize < c.length then .refused .badLength else k

/-- R130, R150, R33: the framing state of a phase with nothing collected and nothing recorded. -/
def freshFraming (phase : Phase) (s : State) : State :=
  { s with phase := phase, cand := [], needed := payloadSize, out := none, err := none }

/-- R205: the error entry, the only way into FAILED. -/
def failState (code : ErrorCode) (cause : Option Cause) (s : State) : State :=
  { s with
    phase := .failed, err := some ⟨code, cause⟩, cand := [], needed := payloadSize, out := none }

/-- R205, R207: `Fail(code, cause)`, surfaced in the response to the request that raised it. -/
def fail (code : ErrorCode) (cause : Option Cause) (s : State) : Result :=
  respond (.error code cause) (failState code cause s)

/-- R230: the reset input. Every field takes its value of R33; the parameters are no state, and what
the host presents after the reset is still to come. -/
def resetInput (s : State) (rest : List Item) : State :=
  { State.reset with cfg := s.cfg, inbox := rest }

/-- R30: GENCMD's read of the command ROM. -/
def romRead (rom : CommandRom) : Kind → Packet
  | .final => rom.readCo2
  | .raw => rom.readRawCo2

/-- R140: how low a rescan may search a body of `len` bytes. -/
def rescanFloor (policy : Rescan) (discardedEmpty : Bool) (len : Nat) : Nat :=
  let lo := if discardedEmpty then 1 else 0
  match policy with
  | .full => lo
  | .trailing w => max lo (len - w)

/-- The outcome of one comparison of a body with what the candidate still needs (R138 to R141). -/
inductive Compared where
  /-- R138: the candidate is complete. -/
  | equal (packet : List Byte)
  /-- R139: the candidate and its count after the body is appended. -/
  | less (cand : List Byte) (needed : Nat)
  /-- R140: Discard-and-rescan found no boundary. -/
  | discard
  /-- R141: Discard-and-rescan found one; the comparison starts again with this body. -/
  | restart (body : List Byte)
  deriving DecidableEq, Repr

/-- R138 to R140: one pass. -/
def compareBody (policy : Rescan) (cand : List Byte) (needed : Nat) (body : List Byte) : Compared :=
  if body.length = needed then .equal (cand ++ body)
  else if body.length < needed then .less (cand ++ body) (needed - body.length)
  else
    match lastIndexOf body marker (rescanFloor policy cand.isEmpty body.length) with
    | none => .discard
    | some r => .restart (body.drop r)

/-- R131, R141, R142: the loop of a chunk step, for at most `passes` passes; a restart compares against
the empty candidate. -/
def boundaryLoop (policy : Rescan) :
    (passes : Nat) → (cand : List Byte) → (needed : Nat) → (body : List Byte) → Option Compared
  | 0, _, _, _ => none
  | n + 1, cand, needed, body =>
    match compareBody policy cand needed body with
    | .equal p => some (.equal p)
    | .less cand' needed' => some (.less cand' needed')
    | .discard => some .discard
    | .restart body' => boundaryLoop policy n [] payloadSize body'

/-- R138 to R140: what the end of the loop writes and responds. -/
def settle (s : State) : Option Compared → Result
  | some (.equal bytes) =>
    match exactly? 9 bytes with
    | some p =>
      respond (.done p) { s with out := some p, cand := [], needed := payloadSize, phase := .complete }
    | none => .fault .candidateCorrupt
  | some (.less cand needed) =>
    respond .wait { s with cand := cand, needed := needed, phase := .accum }
  | some .discard => respond .wait { s with cand := [], needed := payloadSize, phase := .hunt }
  | some (.restart _) => .fault .thirdPass
  | none => .fault .thirdPass

/-- R134 to R142: the chunk step, its preconditions met. -/
def chunkStep (c : List Byte) (s : State) : Result :=
  match lastIndexOf c marker 0 with
  | none =>
    if s.cand = [] then respond .wait s
    else settle s (boundaryLoop s.cfg.rescan 2 s.cand s.needed c)
  | some m =>
    if s.cfg.markerReset then settle s (boundaryLoop s.cfg.rescan 2 [] payloadSize (c.drop m))
    else settle s (boundaryLoop s.cfg.rescan 2 s.cand s.needed (c.drop m))

/-- R131 to R133: consume one chunk, in the decision order of R84. -/
def consumeChunk (c : List Byte) (s : State) : Result :=
  requireLength s c (requirePhase (framingPhase s.phase) (chunkStep c s))

end Sys2Proof.Machine
end

