-- ==== Sys2Proof/Machine/Codec.lean ====
section
/-!
DEFINITION. The codec's operations (40_codec.md): CKSUM, CKVAL, HDRCHK, CHECK, GENCMD.
-/

namespace Sys2Proof.Machine

/-- R100: CKSUM, legal in every phase. -/
def execCksum (b : Seven) (s : State) : Result := respond (.value (.byte (checksum b))) s

/-- R103: CKVAL, legal in every phase. -/
def execCkval (p : Packet) (s : State) : Result := respond (.value (verdict (checksumValid p))) s

/-- R104: HDRCHK, legal in every phase. -/
def execHdrchk (k : Byte) (p : Packet) (s : State) : Result :=
  requireKind k fun kind => respond (.value (verdict (headerValid p kind))) s

/-- R106, R107: the checks of a completed packet, the checksum before the header. -/
def checkPacket (kind : Kind) (p : Packet) (s : State) : Result :=
  if checksumValid p = false then fail .invalidChecksum none s
  else if headerValid p kind = false then fail .invalidPacket none s
  else respond .ok s

/-- R106: CHECK, legal in COMPLETE only. -/
def execCheck (k : Byte) (s : State) : Result :=
  requireKind k fun kind =>
    requirePhase (s.phase == .complete)
      (match s.out with
      | some p => checkPacket kind p s
      | none => .fault .outAbsent)

/-- R108: GENCMD, legal in every phase. -/
def execGencmd (k : Byte) (s : State) : Result :=
  requireKind k fun kind => respond (.value (.packet (romRead s.rom kind))) s

end Sys2Proof.Machine
end

