-- ==== Sys2Proof/Machine/Framer.lean ====
section
/-!
DEFINITION. The framer's operations (41_framer.md): START, CHUNK, EOF, RDERR, CANCEL, RDSTAT, RDOUT.
-/

namespace Sys2Proof.Machine

/-- R130: START, legal outside HUNT and ACCUM. -/
def execStart (s : State) : Result :=
  requirePhase (!framingPhase s.phase) (respond .ok (freshFraming .hunt s))

/-- R131: CHUNK. -/
def execChunk (c : List Byte) (s : State) : Result := consumeChunk c s

/-- R148: EOF. -/
def execEof (s : State) : Result := requirePhase (framingPhase s.phase) (fail .readingEOF none s)

/-- R149: RDERR; the cause is kept unexamined. -/
def execRderr (cause : Cause) (s : State) : Result :=
  requirePhase (framingPhase s.phase) (fail .reading (some cause) s)

/-- R150: CANCEL, legal in every phase. -/
def execCancel (s : State) : Result := respond .ok (freshFraming .idle s)

/-- R146: RDSTAT, legal in every phase. -/
def execRdstat (s : State) : Result :=
  match statusWord? s with
  | some w => respond (.value (.status w)) s
  | none => .fault .errAbsent

/-- R147: RDOUT, legal in COMPLETE only. -/
def execRdout (s : State) : Result :=
  requirePhase (s.phase == .complete)
    (match s.out with
    | some p => respond (.value (.packet p)) s
    | none => .fault .outAbsent)

end Sys2Proof.Machine
end

