-- ==== Sys2Proof/Machine/Packets.lean ====
section
/-!
DEFINITION. The packet rows of the opcode table (30_encoding.md R72, R73): a packet that has come whole
in one stream read is consumed as one chunk (R53, R131, R172). DESIGN CHOICE (log entry 4).
-/

namespace Sys2Proof.Machine

/-- R72, R109: READ_CO2 echoed back into the framer. -/
def execReadCo2 (s : State) : Result := consumeChunk readCo2Packet.toList s

/-- R72, R109: READ_RAW_CO2 echoed back into the framer. -/
def execReadRawCo2 (s : State) : Result := consumeChunk readRawCo2Packet.toList s

/-- R73: a response to READ_CO2. -/
def execRspFinal (tail : Seven) (s : State) : Result :=
  consumeChunk (responsePacket .final tail).toList s

/-- R73: a response to READ_RAW_CO2. -/
def execRspRaw (tail : Seven) (s : State) : Result :=
  consumeChunk (responsePacket .raw tail).toList s

end Sys2Proof.Machine
end

