-- ==== Sys2Proof/Machine/Dispatch.lean ====
section
/-!
DEFINITION. One arm for each operation.
-/

namespace Sys2Proof.Machine

def exec (i : Instr) (s : State) : Host.Outcome State Fault Refusal :=
  match i with
  | .start => Sys2Proof.Machine.execStart s
  | .chunk c => Sys2Proof.Machine.execChunk c s
  | .eof => Sys2Proof.Machine.execEof s
  | .rderr cause => Sys2Proof.Machine.execRderr cause s
  | .cancel => Sys2Proof.Machine.execCancel s
  | .rdstat => Sys2Proof.Machine.execRdstat s
  | .rdout => Sys2Proof.Machine.execRdout s
  | .cksum b => Sys2Proof.Machine.execCksum b s
  | .ckval p => Sys2Proof.Machine.execCkval p s
  | .hdrchk k p => Sys2Proof.Machine.execHdrchk k p s
  | .check k => Sys2Proof.Machine.execCheck k s
  | .gencmd k => Sys2Proof.Machine.execGencmd k s
  | .readCo2 => Sys2Proof.Machine.execReadCo2 s
  | .readRawCo2 => Sys2Proof.Machine.execReadRawCo2 s
  | .rspFinal tail => Sys2Proof.Machine.execRspFinal tail s
  | .rspRaw tail => Sys2Proof.Machine.execRspRaw tail s

end Sys2Proof.Machine
end

