-- ==== Sys2Proof/Machine/Step.lean ====
section
/-!
DEFINITION. One step: the block takes the request at the front of its interface and performs it as one
atomic operation (00_scope.md R15, R16; 20_memory.md R60), or is reset (R230), or waits (R238).
-/

namespace Sys2Proof.Machine

/-- R16, R60, R230, R238. -/
def step (s : State) : Host.Outcome State Fault Refusal :=
  match fetch s.inbox with
  | .instr i rest => exec i { s with inbox := rest }
  | .reset rest => .next (resetInput s rest)
  | .idle => .fault .awaitingRequest
  | .unfinished => .fault .awaitingPayload
  | .rejected e => .refused (refusalOfDecode e)

/-- The state in which the host has just presented a word of the opcode table, in front of whatever
else it has presented (log entry 2). -/
def State.withFetchWord (s : State) (nbits w : Nat) : State :=
  { s with inbox := tableItems nbits w ++ s.inbox }

end Sys2Proof.Machine
end

