-- ==== Sys2Proof/Machine/Driver.lean ====
section
/-!
DEFINITION. The host's transaction sequence (42_host_transaction.md R171 to R174) over the block's
operations. The Transaction Driver is no part of the block (00_scope.md R2): nothing here is used by
`step`; it lets the rules about a whole exchange be stated (log entry 9).
-/

namespace Sys2Proof.Machine

/-- How one exchange stands when the given read results are used up. -/
inductive TransactionEnd where
  /-- R171 step 7: the validated packet, handed to the (out-of-scope) decoder. -/
  | handed (p : Packet) (s : State)
  /-- R207, R208: the first error, which ends the transaction. -/
  | failed (code : ErrorCode) (cause : Option Cause) (s : State)
  /-- R177, R238: the last read has not returned, and the block waits. -/
  | pending (s : State)
  /-- A request of the sequence had no meaning in that state (R212), or the machine stopped. -/
  | stopped (r : Result)

/-- R171: "Steps 1 and 4 may be swapped, provided no chunk is delivered before step 3 ends." -/
inductive TransactionOrder where
  /-- The steps as R171 lists them: GENCMD, write, flush, START. -/
  | commandFirst
  /-- START in the place of step 1: START, GENCMD, write, flush (log entry 9). -/
  | startFirst
  deriving DecidableEq, Repr

/-- One request of the sequence, and what the host does in the state after it. -/
def issue {α : Type} (i : Instr) (s : State) (stop : Result → α) (next : State → α) : α :=
  match exec i s with
  | .next t => next t
  | .fault f => stop (.fault f)
  | .refused r => stop (.refused r)

/-- R171 step 1: the command the host obtains, and what it does with the block after that. -/
def obtainCommand (kind : Kind) (s : State) (next : State → TransactionEnd) :
    Option Packet × TransactionEnd :=
  issue (.gencmd (kindCode kind)) s (fun r => (none, .stopped r)) fun t =>
    match t.response with
    | some (.value (.packet command)) => (some command, next t)
    | _ => (none, .stopped (.next t))

/-- R171 steps 2 and 3, R173: `write` and `flush` fail in the host, and the block does not change. -/
def sendCommand (writeError flushError : Option Cause) (s : State) (next : State → TransactionEnd) :
    TransactionEnd :=
  match writeError, flushError with
  | some c, _ => .failed .writingToUart (some c) s
  | none, some c => .failed .flushingUart (some c) s
  | none, none => next s

/-- R171 steps 6 and 7. -/
def validatePacket (kind : Kind) (s : State) : TransactionEnd :=
  issue (.check (kindCode kind)) s .stopped fun t =>
    match t.response, t.out with
    | some .ok, some p => .handed p t
    | some (.error code cause), _ => .failed code cause t
    | _, _ => .stopped (.next t)

/-- R171 step 5, R172: each read result becomes one request, until one is answered DONE or ERROR. -/
def receivePacket (kind : Kind) : List ReadResult → State → TransactionEnd
  | [], s => .pending s
  | r :: reads, s =>
    issue (decodeRead r) s .stopped fun t =>
      match t.response with
      | some .wait => receivePacket kind reads t
      | some (.done _) => validatePacket kind t
      | some (.error code cause) => .failed code cause t
      | _ => .stopped (.next t)

/-- R171: one exchange for a kind, in one of the two orders: the command the host writes (step 1), and
how the exchange ends, where `writeError` and `flushError` are the failures of `write` and `flush`, if
any, and `reads` the results of the stream reads in order. -/
def transaction (order : TransactionOrder) (kind : Kind) (writeError flushError : Option Cause)
    (reads : List ReadResult) (s : State) : Option Packet × TransactionEnd :=
  match order with
  | .commandFirst =>
    obtainCommand kind s fun t =>
      sendCommand writeError flushError t fun u =>
        issue .start u .stopped fun v => receivePacket kind reads v
  | .startFirst =>
    issue .start s (fun r => (none, .stopped r)) fun t =>
      obtainCommand kind t fun u =>
        sendCommand writeError flushError u fun v => receivePacket kind reads v

end Sys2Proof.Machine
end

