-- ==== Sys2Proof/Safety.lean ====
section
/-!
DEFINITION. What claims say of a state and of a run: the framing invariant, the part of the state that
an operation may leave alone, and chunk runs.
-/

namespace Sys2Proof.Machine

/-- The invariant between operations: R25 for the candidate, R24 for the count, R26 for `out`, R28 and
R206 for `err`, R30 for the command ROM. -/
structure State.Inv (s : State) : Prop where
  /-- R25(a). -/
  count : framingPhase s.phase = true → s.cand.length + s.needed = payloadSize
  /-- R25(b). -/
  hunt_iff : s.phase = .hunt ↔ framingPhase s.phase = true ∧ s.cand = []
  /-- R25(c). -/
  head_marker : s.cand ≠ [] → s.cand.head? = some marker
  /-- R25(d). -/
  at_rest : framingPhase s.phase = false → s.cand = [] ∧ s.needed = payloadSize
  /-- R24. -/
  needed_range : 1 ≤ s.needed ∧ s.needed ≤ payloadSize
  /-- R26: `out` holds a value exactly while COMPLETE. -/
  out_iff : s.out.isSome = true ↔ s.phase = .complete
  /-- R26: `out[0] = 0xFF`. -/
  out_marker : ∀ p, s.out = some p → p[0] = marker
  /-- R28: `err` holds a value exactly while FAILED. -/
  err_iff : s.err.isSome = true ↔ s.phase = .failed
  /-- R28, R206: no host-side code is ever held, and a cause is held exactly for `Reading`. -/
  err_code : ∀ e, s.err = some e →
    e.code ≠ .writingToUart ∧ e.code ≠ .flushingUart ∧ (e.cause.isSome = true ↔ e.code = .reading)
  /-- R30. -/
  rom_contents : s.rom = CommandRom.contents

/-- The framing state of R231. -/
structure Framing where
  phase : Phase
  cand : List Byte
  needed : Nat
  out : Option Packet
  err : Option ErrRecord
  deriving DecidableEq, Repr

/-- R231: the framing state of a state. -/
def State.framing (s : State) : Framing := ⟨s.phase, s.cand, s.needed, s.out, s.err⟩

/-- The next state of an answer, if it is one. -/
def nextState? : Result → Option State
  | .next s => some s
  | .fault _ => none
  | .refused _ => none

/-- R80: these items are the request of this operation, whatever stands after them. -/
def RequestOf (i : Instr) (items : List Item) : Prop :=
  ∀ rest, fetch (items ++ rest) = .instr i rest

/-- The operations performed one after the other (20_memory.md R60), up to the first stop. -/
def execAll : List Instr → State → Result
  | [], s => .next s
  | i :: is, s =>
    match exec i s with
    | .next t => execAll is t
    | .fault f => .fault f
    | .refused r => .refused r

/-- R56: bytes delivered one a chunk. -/
def oneByteChunks (bs : List Byte) : List Instr := bs.map fun b => .chunk [b]

/-- R10: a state, an operation and an answer with their causes renamed. -/
def State.mapCause (f : Cause → Cause) (s : State) : State :=
  { s with
    err := s.err.map fun e => ⟨e.code, e.cause.map f⟩
    inbox := s.inbox.map fun
      | .cause c => .cause (f c)
      | .read (.error c) => .read (.error (f c))
      | i => i
    response := s.response.map fun
      | .error code cause => .error code (cause.map f)
      | r => r }

/-- R10: an operation with its cause renamed; only RDERR has one. -/
def mapCauseInstr (f : Cause → Cause) : Instr → Instr
  | .rderr c => .rderr (f c)
  | i => i

/-- An answer with its next state mapped. -/
def mapResult (f : State → State) : Result → Result
  | .next s => .next (f s)
  | .fault r => .fault r
  | .refused r => .refused r

/-- R151: a state with the bytes the framer holds renamed: the candidate, `out`, and a packet in the
response. -/
def State.mapBytes (f : Byte → Byte) (s : State) : State :=
  { s with
    cand := s.cand.map f
    out := s.out.map fun p => p.map f
    response := s.response.map fun
      | .done p => .done (p.map f)
      | r => r }

/-- R138: the answer of a chunk step that completes the candidate with these nine bytes, every other
field as before. -/
def CompletesWith (bytes : List Byte) (s : State) (r : Result) : Prop :=
  ∃ p : Packet, p.toList = bytes ∧
    r = .next { s with
      phase := .complete, cand := [], needed := payloadSize, out := some p, response := some (.done p) }

/-- R139: the answer of a chunk step that leaves this candidate, every other field as before. -/
def AccumulatesTo (cand : List Byte) (s : State) (r : Result) : Prop :=
  r = .next { s with
    phase := .accum, cand := cand, needed := payloadSize - cand.length, response := some .wait }

/-- R140: the answer of a chunk step that ends with nothing collected, every other field as before. -/
def DiscardsAll (s : State) (r : Result) : Prop :=
  r = .next { s with
    phase := .hunt, cand := [], needed := payloadSize, response := some .wait }

/-- R135: the answer of a chunk step that ignores its chunk. -/
def IgnoresChunk (s : State) (r : Result) : Prop := r = .next { s with response := some .wait }

/-- R132, R133: the state and the length of a chunk that is consumed. -/
def ChunkAccepted (s : State) (c : List Byte) : Prop :=
  framingPhase s.phase = true ∧ 1 ≤ c.length ∧ c.length ≤ s.cfg.scratchSize

/-- R136: `body` runs from the chunk's last marker to its end. -/
def BodyAtMarker (c body : List Byte) : Prop :=
  ∃ pre tail, c = pre ++ marker :: tail ∧ marker ∉ tail ∧ body = marker :: tail

/-- R136, R137: the candidate and the body of a chunk step's first comparison. -/
def FirstComparison (s : State) (c cand body : List Byte) : Prop :=
  (marker ∉ c ∧ s.cand ≠ [] ∧ cand = s.cand ∧ body = c) ∨
    (BodyAtMarker c body ∧ cand = if s.cfg.markerReset then [] else s.cand)

/-- R143: a restart is allowed for a body of this length. -/
def restartAllowed (policy : Rescan) (len : Nat) : Bool :=
  match policy with
  | .full => true
  | .trailing w => decide (len ≤ w)

/-- R143: the rescan policies that a packet-long body cannot tell from FULL. -/
def wideRescan (policy : Rescan) : Bool := restartAllowed policy payloadSize

/-- The same state under another rescan policy. -/
def State.withRescan (policy : Rescan) (s : State) : State :=
  { s with cfg := { s.cfg with rescan := policy } }

/-- 41_framer.md, the table of transitions, with the operations that leave the phase alone and the
packet rows as the chunks they are. -/
def transitionAllowed (i : Instr) (before after : Phase) : Bool :=
  match i with
  | .start => !framingPhase before && after == .hunt
  | .chunk _ | .readCo2 | .readRawCo2 | .rspFinal _ | .rspRaw _ =>
    framingPhase before && (framingPhase after || after == .complete)
  | .eof | .rderr _ => framingPhase before && after == .failed
  | .check _ => before == .complete && (after == .complete || after == .failed)
  | .rdout => before == .complete && after == .complete
  | .cancel => after == .idle
  | .rdstat | .cksum _ | .ckval _ | .hdrchk _ _ | .gencmd _ => before == after

/-- R130, R132, R147 to R150, R106, R146, R110: the phases in which an operation is legal. -/
def legalPhase (i : Instr) (ph : Phase) : Bool :=
  match i with
  | .start => ph == .idle || ph == .complete || ph == .failed
  | .chunk _ | .eof | .rderr _ | .readCo2 | .readRawCo2 | .rspFinal _ | .rspRaw _ =>
    ph == .hunt || ph == .accum
  | .rdout | .check _ => ph == .complete
  | .cancel | .rdstat | .cksum _ | .ckval _ | .hdrchk _ _ | .gencmd _ => true

end Sys2Proof.Machine
end

