-- ==== Sys2Proof/Certificates/Slice0/Obligations.lean ====
section
/-!
DEFINITION. The statements for the provers. Each docstring names the rules it formalises.
-/

open Sys2Proof Sys2Proof.Machine

/-! Encodings and the interface -/

/-- R78, R80 to R82: decoding the request (or packet) of a well-formed operation gives it back, with
every operand at every value the encoding admits, and leaves what follows untouched. -/
def Obligations.DecodeOfEncode : Prop :=
  ∀ (cfg : Config) (i : Instr) (rest : List Item), i.wellFormed cfg = true →
    fetch (encode i ++ rest) = .instr i rest

/-- R80 to R82: a request word has one meaning: what is decoded from it is encoded to the same items. -/
def Obligations.EncodeOfDecode : Prop :=
  ∀ (w : Word) (rest : List Item) (i : Instr) (rest' : List Item),
    fetch (.word w :: rest) = .instr i rest' → .word w :: rest = encode i ++ rest'

/-- R81: the payload that belongs to a request is decided by `OP` and `ARG` alone. -/
def Obligations.PayloadDecidedByWord : Prop :=
  ∀ (w : Word) (rest : List Item) (i : Instr) (rest' : List Item),
    fetch (.word w :: rest) = .instr i rest' →
      ∃ payload, rest = payload ++ rest' ∧
        (if wordOp w = 0x02 then
          ∃ bs : List Byte, payload = bs.map .byte ∧ bs.length = (wordArg w).toNat ∧ i = .chunk bs
        else if wordOp w = 0x04 then ∃ c, payload = [.cause c] ∧ i = .rderr c
        else if wordOp w = 0x10 then ∃ b : Seven, payload = b.toList.map .byte ∧ i = .cksum b
        else if wordOp w = 0x11 then ∃ p : Packet, payload = p.toList.map .byte ∧ i = .ckval p
        else if wordOp w = 0x12 then
          ∃ p : Packet, payload = p.toList.map .byte ∧ i = .hdrchk (wordArg w) p
        else payload = [])

/-- R85: a reserved `OP`, and no other, is refused with `BadOpcode`, in every state. -/
def Obligations.ReservedOpcodesRefused : Prop :=
  ∀ (s : State) (w : Word) (rest : List Item), s.inbox = .word w :: rest →
    (step s = .refused .badOpcode ↔
      (wordOp w).toNat = 0x00 ∨ (0x08 ≤ (wordOp w).toNat ∧ (wordOp w).toNat ≤ 0x0F) ∨
        (0x14 ≤ (wordOp w).toNat ∧ (wordOp w).toNat ≤ 0x1F) ∨ 0x21 ≤ (wordOp w).toNat)

/-- R83: the argument checks of a request, in every state and so before any phase check (R84). That
the first clause is decided at the word, whatever of RDERR's, CKSUM's or CKVAL's payload is there yet, is
the model's choice (log entry 6). -/
def Obligations.ArgumentsRefused : Prop :=
  ∀ (s : State) (rest : List Item),
    (∀ w : Word, s.inbox = .word w :: rest →
      wordOp w ∈ ([0x01, 0x03, 0x04, 0x05, 0x06, 0x07, 0x10, 0x11] : List Byte) →
      wordArg w ≠ 0 → step s = .refused .badArg) ∧
    (∀ (n : Byte) (bs : List Byte), bs.length = n.toNat →
      s.inbox = .word (requestWord .chunk n) :: (bs.map .byte ++ rest) →
      n = 0 ∨ s.cfg.scratchSize < n.toNat → step s = .refused .badLength) ∧
    (∀ (k : Byte) (p : Packet), k ≠ 0x86 → k ≠ 0x85 →
      s.inbox = .word (requestWord .hdrchk k) :: (p.toList.map .byte ++ rest) ∨
        s.inbox = .word (requestWord .check k) :: rest ∨
        s.inbox = .word (requestWord .gencmd k) :: rest →
      step s = .refused .badKind)

/-- R84 step 3 with R106, R130, R132, R146 to R150: a request whose argument passes its check is refused
with `BadPhase` exactly in the phases in which its operation is not legal. That a packet row is legal
where CHUNK is rests on the model's choice to read it as a chunk (log entry 4). -/
def Obligations.WrongPhaseRefused : Prop :=
  ∀ (s : State) (i : Instr), i.wellFormed s.cfg = true → payloadSize ≤ s.cfg.scratchSize →
    (exec i s = .refused .badPhase ↔ legalPhase i s.phase = false)

/-- R82 and the table's words: a few request words and packets, written out, decode to what they stand
for. That a word is presented with a payload of zeros (log entry 2), and a packet as the result of one
stream read (log entry 4), is the model's choice. -/
def Obligations.WrittenWordsDecode : Prop :=
  decodeTableWord 16 0x0001 = some .start ∧
  decodeTableWord 16 0x0302 = some (.chunk [0, 0, 0]) ∧
  decodeTableWord 16 0x0010 = some (.cksum #v[0, 0, 0, 0, 0, 0, 0]) ∧
  decodeTableWord 16 0x8513 = some (.check 0x85) ∧
  decodeTableWord 16 0x8620 = some (.gencmd 0x86) ∧
  decodeTableWord 16 0x0101 = none ∧
  decodeTableWord 72 0xFF018500000000007A = some .readRawCo2 ∧
  decodeTableWord 72 0xFF860100000000AB79 = some (.rspFinal #v[0x01, 0, 0, 0, 0, 0xAB, 0x79])

/-- R78: a packet is decoded as a row of the opcode table exactly when its 72-bit number matches the
row, and nothing of it is lost. That the rows name operations of the block is the model's choice (log
entry 4). -/
def Obligations.PacketRowsByMask : Prop :=
  ∀ p : Packet,
    (decodePacket p = some .readCo2 ↔
      packetNumber p &&& 0xFFFFFFFFFFFFFFFFFF = 0xFF0186000000000079) ∧
    (decodePacket p = some .readRawCo2 ↔
      packetNumber p &&& 0xFFFFFFFFFFFFFFFFFF = 0xFF018500000000007A) ∧
    ((∃ t, decodePacket p = some (.rspFinal t)) ↔
      packetNumber p &&& 0xFFFF00000000000000 = 0xFF8600000000000000) ∧
    (∀ t, decodePacket p = some (.rspFinal t) → responsePacket .final t = p) ∧
    ((∃ t, decodePacket p = some (.rspRaw t)) ↔
      packetNumber p &&& 0xFFFF00000000000000 = 0xFF8500000000000000) ∧
    (∀ t, decodePacket p = some (.rspRaw t) → responsePacket .raw t = p) ∧
    packetOfNumber (packetNumber p) = p

/-- R172: each result of a stream read becomes exactly one request: CHUNK with the bytes in the order
read, EOF for a count of 0, RDERR for an error. That a step takes the read's result itself is the
model's choice (log entry 2). -/
def Obligations.ReadResultsBecomeRequests : Prop :=
  ∀ (s : State) (rest : List Item),
    (∀ c : List Byte, c ≠ [] → s.inbox = .read (.bytes c) :: rest →
      step s = exec (.chunk c) { s with inbox := rest }) ∧
    (s.inbox = .read (.bytes []) :: rest → step s = exec .eof { s with inbox := rest }) ∧
    (∀ cause, s.inbox = .read (.error cause) :: rest →
      step s = exec (.rderr cause) { s with inbox := rest })

/-- R16, R80: a step at a state with a complete request in front is that operation, once, on the state
from which the request has been taken. -/
def Obligations.StepRunsRequest : Prop :=
  ∀ (s : State) (i : Instr) (rest : List Item), fetch s.inbox = .instr i rest →
    step s = exec i { s with inbox := rest }

/-- R238, R219, R80: with nothing presented, or a request of which any part of the payload is still
missing, there is no step; every step takes one complete request, or a reset, from the interface. That
waiting is a stop of these names is the model's choice (log entry 6). -/
def Obligations.NoStepWithoutInput : Prop :=
  ∀ s : State,
    (s.inbox = [] → step s = .fault .awaitingRequest) ∧
    (∀ (w : Word) (op : Op) (arg : Byte), decodeWord w = .ok (op, arg) →
      (∀ (n : Nat) (bs : List Byte), payloadShape op arg = .bytes n → bs.length < n →
        s.inbox = .word w :: bs.map .byte → step s = .fault .awaitingPayload) ∧
      (payloadShape op arg = .cause → s.inbox = [.word w] → step s = .fault .awaitingPayload)) ∧
    (∀ t, step s = .next t →
      ((∃ i, fetch s.inbox = .instr i t.inbox) ∨ fetch s.inbox = .reset t.inbox) ∧
        ∃ taken, taken ≠ [] ∧ s.inbox = taken ++ t.inbox)

/-! Reset -/

/-- R33: what reset leaves, and the status word it reads as. -/
def Obligations.ResetValues : Prop :=
  State.reset.phase = .idle ∧ State.reset.cand = [] ∧ State.reset.needed = 9 ∧
  State.reset.out = none ∧ State.reset.err = none ∧
  State.reset.rom.readCo2 = #v[0xFF, 0x01, 0x86, 0x00, 0x00, 0x00, 0x00, 0x00, 0x79] ∧
  State.reset.rom.readRawCo2 = #v[0xFF, 0x01, 0x85, 0x00, 0x00, 0x00, 0x00, 0x00, 0x7A] ∧
  exec .rdstat State.reset =
    .next { State.reset with response := some (.value (.status 0x0090)) }

/-- R230: the reset input puts every field at its value of R33, in every state, and drops a request of
which only a part has been presented. (The parameters stay: log entry 1. The response is none: log
entry 3.) -/
def Obligations.ResetInputDropsRequest : Prop :=
  ∀ (s : State) (rest : List Item),
    s.inbox = .reset :: rest ∨
      (∃ (w : Word) (op : Op) (arg : Byte) (n : Nat) (bs : List Byte),
        decodeWord w = .ok (op, arg) ∧ payloadShape op arg = .bytes n ∧ bs.length < n ∧
          s.inbox = .word w :: (bs.map .byte ++ .reset :: rest)) ∨
      s.inbox = .word (requestWord .rderr 0) :: .reset :: rest →
    step s = .next
      { cfg := s.cfg, phase := .idle, cand := [], needed := 9, out := none, err := none,
        rom := ⟨readCo2Packet, readRawCo2Packet⟩, inbox := rest, response := none }

/-- R231: in every state, the reset input leaves the framing state exactly as CANCEL does. -/
def Obligations.ResetLeavesWhatCancelLeaves : Prop :=
  ∀ (s : State) (rest : List Item), s.inbox = .reset :: rest →
    ∃ t u, step s = .next t ∧ exec .cancel s = .next u ∧ t.framing = u.framing

/-! The framer -/

/-- R130: START's request; START in IDLE, COMPLETE and FAILED, with its whole frame, and its refusal
elsewhere. -/
def Obligations.StartResult : Prop :=
  RequestOf .start [.word 0x0001] ∧
  ∀ s : State,
    (s.phase = .idle ∨ s.phase = .complete ∨ s.phase = .failed →
      exec .start s = .next { s with
        phase := .hunt, cand := [], needed := 9, out := none, err := none, response := some .ok }) ∧
    (s.phase = .hunt ∨ s.phase = .accum → exec .start s = .refused .badPhase)

/-- R180, R130: START carries nothing over: from any two states that differ in the framing state and the
last response only, it gives the same state. -/
def Obligations.StartCarriesNothingOver : Prop :=
  ∀ s t : State, legalPhase .start s.phase = true → legalPhase .start t.phase = true →
    s.cfg = t.cfg → s.rom = t.rom → s.inbox = t.inbox →
    ∃ u, exec .start s = .next u ∧ exec .start t = .next u

/-- R148: EOF: its request, its error entry, and its refusal elsewhere. -/
def Obligations.EofResult : Prop :=
  RequestOf .eof [.word 0x0003] ∧
  ∀ s : State,
    (s.phase = .hunt ∨ s.phase = .accum →
      exec .eof s = .next { s with
        phase := .failed, err := some ⟨.readingEOF, none⟩, cand := [], needed := 9, out := none,
        response := some (.error .readingEOF none) }) ∧
    (s.phase ≠ .hunt → s.phase ≠ .accum → exec .eof s = .refused .badPhase)

/-- R149: RDERR: its request, its error entry, which keeps the cause, and its refusal elsewhere. -/
def Obligations.RderrResult : Prop :=
  ∀ (s : State) (cause : Cause),
    RequestOf (.rderr cause) [.word 0x0004, .cause cause] ∧
    (s.phase = .hunt ∨ s.phase = .accum →
      exec (.rderr cause) s = .next { s with
        phase := .failed, err := some ⟨.reading, some cause⟩, cand := [], needed := 9, out := none,
        response := some (.error .reading (some cause)) }) ∧
    (s.phase ≠ .hunt → s.phase ≠ .accum → exec (.rderr cause) s = .refused .badPhase)

/-- R150: CANCEL: its request, what it does in every phase, and that in IDLE it changes nothing (but
the response, log entry 3). -/
def Obligations.CancelResult : Prop :=
  RequestOf .cancel [.word 0x0005] ∧
  ∀ s : State,
    exec .cancel s = .next { s with
      phase := .idle, cand := [], needed := 9, out := none, err := none, response := some .ok } ∧
    (s.Inv → s.phase = .idle → exec .cancel s = .next { s with response := some .ok })

/-- R29, R146: RDSTAT: its request, and in every phase every field of the status word it answers. -/
def Obligations.RdstatResult : Prop :=
  RequestOf .rdstat [.word 0x0006] ∧
  ∀ s : State, s.Inv →
    ∃ w : Word, exec .rdstat s = .next { s with response := some (.value (.status w)) } ∧
      (w.extractLsb' 0 3).toNat =
        (match s.phase with | .idle => 0 | .hunt => 1 | .accum => 2 | .complete => 3 | .failed => 4) ∧
      w.getLsbD 3 = false ∧
      (w.extractLsb' 4 4).toNat = s.needed ∧
      (w.extractLsb' 8 4).toNat =
        (match s.err with
        | none => 0
        | some e =>
          match e.code with
          | .invalidChecksum => 1
          | .invalidPacket => 2
          | .writingToUart => 3
          | .flushingUart => 4
          | .readingEOF => 5
          | .reading => 6) ∧
      (w.extractLsb' 12 4).toNat = s.cand.length ∧
      (s.phase = .accum → (w.extractLsb' 4 4).toNat + (w.extractLsb' 12 4).toNat = 9)

/-- R147: RDOUT: its request; it answers `out`, whole and unchanged, in COMPLETE; elsewhere it is
refused. -/
def Obligations.RdoutResult : Prop :=
  RequestOf .rdout [.word 0x0007] ∧
  ∀ s : State,
    (∀ p, s.phase = .complete → s.out = some p →
      exec .rdout s = .next { s with response := some (.value (.packet p)) }) ∧
    (s.phase ≠ .complete → exec .rdout s = .refused .badPhase)

/-- R132, R133: where a chunk is turned away: outside HUNT and ACCUM, and outside its length bound. -/
def Obligations.ChunkTurnedAway : Prop :=
  ∀ (s : State) (c : List Byte),
    (1 ≤ c.length → c.length ≤ s.cfg.scratchSize →
      s.phase = .idle ∨ s.phase = .complete ∨ s.phase = .failed →
      exec (.chunk c) s = .refused .badPhase) ∧
    (c.length = 0 ∨ s.cfg.scratchSize < c.length → exec (.chunk c) s = .refused .badLength)

/-- R135: a chunk without a marker, with nothing to extend, is ignored. -/
def Obligations.UnmarkedChunkIgnored : Prop :=
  ∀ (s : State) (c : List Byte), ChunkAccepted s c → marker ∉ c → s.cand = [] →
    IgnoresChunk s (exec (.chunk c) s)

/-- R138: a body of exactly `needed` bytes completes the packet. -/
def Obligations.EqualBodyCompletes : Prop :=
  ∀ (s : State) (c cand body : List Byte), s.Inv → ChunkAccepted s c → FirstComparison s c cand body →
    body.length = payloadSize - cand.length →
    CompletesWith (cand ++ body) s (exec (.chunk c) s)

/-- R139: a shorter body is appended, `needed` decremented by its length, which leaves at least 1. -/
def Obligations.ShorterBodyAccumulates : Prop :=
  ∀ (s : State) (c cand body : List Byte), s.Inv → ChunkAccepted s c → FirstComparison s c cand body →
    body.length < payloadSize - cand.length →
    exec (.chunk c) s = .next { s with
      phase := .accum, cand := cand ++ body,
      needed := payloadSize - cand.length - body.length, response := some .wait } ∧
    1 ≤ payloadSize - cand.length - body.length

/-- R143, the table: the outcome of every chunk step, for both values of P_MARKER_RESET and every
P_RESCAN, from `k = len(cand)`, the chunk's length and its last marker alone. -/
def Obligations.ChunkClosedForm : Prop :=
  ∀ (s : State) (c : List Byte), s.Inv → ChunkAccepted s c →
    (marker ∉ c → s.cand = [] → IgnoresChunk s (exec (.chunk c) s)) ∧
    (marker ∉ c → s.cand ≠ [] →
      if c.length = 9 - s.cand.length then CompletesWith (s.cand ++ c) s (exec (.chunk c) s)
      else if c.length < 9 - s.cand.length then AccumulatesTo (s.cand ++ c) s (exec (.chunk c) s)
      else DiscardsAll s (exec (.chunk c) s)) ∧
    (∀ B, BodyAtMarker c B → s.cfg.markerReset = false →
      if B.length = 9 - s.cand.length then CompletesWith (s.cand ++ B) s (exec (.chunk c) s)
      else if B.length < 9 - s.cand.length then AccumulatesTo (s.cand ++ B) s (exec (.chunk c) s)
      else if s.cand ≠ [] ∧ restartAllowed s.cfg.rescan B.length = true ∧ B.length = 9 then
        CompletesWith B s (exec (.chunk c) s)
      else if s.cand ≠ [] ∧ restartAllowed s.cfg.rescan B.length = true ∧ B.length < 9 then
        AccumulatesTo B s (exec (.chunk c) s)
      else DiscardsAll s (exec (.chunk c) s)) ∧
    (∀ B, BodyAtMarker c B → s.cfg.markerReset = true →
      if B.length = 9 then CompletesWith B s (exec (.chunk c) s)
      else if B.length < 9 then AccumulatesTo B s (exec (.chunk c) s)
      else DiscardsAll s (exec (.chunk c) s))

/-- R142: the loop of a chunk step runs at most twice, in every state and for every chunk: a third pass
is never begun, and any greater bound on the passes gives the same outcome. -/
def Obligations.ChunkLoopRunsAtMostTwice : Prop :=
  (∀ (s : State) (c : List Byte), exec (.chunk c) s ≠ .fault .thirdPass) ∧
  (∀ (policy : Rescan) (cand body : List Byte) (needed : Nat),
    marker ∉ body ∨ BodyAtMarker body body →
      ∃ o, ∀ passes, 2 ≤ passes → boundaryLoop policy passes cand needed body = some o)

/-- Every chunk step of a state that keeps the invariant completes, and its frame: the parameters, the
error record, the ROM and the interface are unchanged, and `out` changes only with a DONE. -/
def Obligations.ChunkCompletesWithFrame : Prop :=
  ∀ (s : State) (c : List Byte), s.Inv → ChunkAccepted s c →
    ∃ t, exec (.chunk c) s = .next t ∧
      t.cfg = s.cfg ∧ t.err = s.err ∧ t.rom = s.rom ∧ t.inbox = s.inbox ∧
      ((t.response = some .wait ∧ t.out = s.out ∧ framingPhase t.phase = true) ∨
        ∃ p, t.response = some (.done p) ∧ t.out = some p ∧ t.phase = .complete)

/-- R143: every trailing window of at least a packet gives exactly the outcome of FULL, in every
state. -/
def Obligations.WideWindowsAreFull : Prop :=
  ∀ (s : State) (c : List Byte) (w : Nat), payloadSize ≤ w →
    mapResult (State.withRescan .full) (exec (.chunk c) (s.withRescan (.trailing w))) =
      exec (.chunk c) (s.withRescan .full)

/-- R143: a window shorter than a packet differs from FULL exactly where FULL restarts and the window
does not reach the boundary. -/
def Obligations.NarrowWindowsDifferExactly : Prop :=
  ∀ (s : State) (c B : List Byte) (w : Nat), s.Inv → ChunkAccepted s c → s.cfg.markerReset = false →
    BodyAtMarker c B → w < payloadSize →
    (mapResult (State.withRescan .full) (exec (.chunk c) (s.withRescan (.trailing w))) ≠
        exec (.chunk c) (s.withRescan .full) ↔
      s.cand ≠ [] ∧ w < B.length ∧ B.length ≤ 9 ∧ 9 - s.cand.length < B.length)

/-- R144: a chunk that ends with a packet free of markers after its first byte completes that packet,
whatever the candidate held and whatever came before it in the chunk. -/
def Obligations.LatestPacketWins : Prop :=
  ∀ (s : State) (earlier : List Byte) (p : Packet), s.Inv → ChunkAccepted s (earlier ++ p.toList) →
    wideRescan s.cfg.rescan = true → p[0] = marker → marker ∉ p.toList.tail →
    CompletesWith p.toList s (exec (.chunk (earlier ++ p.toList)) s)

/-- R145: in HUNT, a packet whose last marker stands inside it loses the bytes before that marker. -/
def Obligations.MarkerInsidePacketMisframes : Prop :=
  ∀ (s : State) (p : Packet) (before tail : List Byte), s.Inv → s.phase = .hunt →
    payloadSize ≤ s.cfg.scratchSize → p.toList = before ++ marker :: tail → marker ∉ tail →
    before ≠ [] → AccumulatesTo (marker :: tail) s (exec (.chunk p.toList) s)

/-- R145, R56: the same packet, delivered one byte a chunk, is framed whole, wherever its bytes are
0xFF, when P_MARKER_RESET is false. -/
def Obligations.OneByteChunksFrameAnyPacket : Prop :=
  ∀ (s : State) (p : Packet), s.Inv → s.phase = .hunt → 1 ≤ s.cfg.scratchSize →
    s.cfg.markerReset = false → p[0] = marker →
    CompletesWith p.toList s (execAll (oneByteChunks p.toList) s)

/-- R151: a chunk step compares bytes only with the marker: renaming every byte, the marker kept apart
from the rest, renames the outcome and changes nothing else. -/
def Obligations.FramerReadsOnlyMarkers : Prop :=
  ∀ (f : Byte → Byte) (s : State) (c : List Byte), (∀ b, f b = marker ↔ b = marker) →
    exec (.chunk (c.map f)) (s.mapBytes f) = mapResult (State.mapBytes f) (exec (.chunk c) s)

/-! The codec -/

/-- R100: CKSUM: its request, and in every state the value, which is the closed form of the rule. -/
def Obligations.CksumResult : Prop :=
  ∀ (s : State) (b : Seven),
    RequestOf (.cksum b) (.word 0x0010 :: b.toList.map .byte) ∧ ∃ v : Byte,
    exec (.cksum b) s = .next { s with response := some (.value (.byte v)) } ∧
    v.toNat = (256 - (b.toList.map BitVec.toNat).sum % 256) % 256

/-- R101: (a) the byte map is an involution; (b) validity is a zero sum of bytes 1 to 8; (c) byte 0 is
not covered. -/
def Obligations.ChecksumLaws : Prop :=
  (∀ x : Byte, complementPlusOne (complementPlusOne x) = x) ∧
  (∀ p : Packet, checksumValid p = true ↔ (p.toList.tail.map BitVec.toNat).sum % 256 = 0) ∧
  (∀ (p : Packet) (b : Byte), checksum (interiorBytes (p.set 0 b)) = checksum (interiorBytes p))

/-- R102: one changed byte of bytes 1 to 8 of a valid packet fails CKVAL; a change of byte 0 alone passes
CKVAL and fails HDRCHK. -/
def Obligations.SingleByteChangeDetected : Prop :=
  ∀ (s : State) (p : Packet) (b : Byte), packetValid p = true →
    (∀ i : Fin 9, i ≠ 0 → b ≠ p[i] →
      exec (.ckval (p.set i b)) s = .next { s with response := some (.value (.byte 0)) }) ∧
    (b ≠ p[0] →
      exec (.ckval (p.set 0 b)) s = .next { s with response := some (.value (.byte 1)) } ∧
      ∀ k : Byte, k = 0x86 ∨ k = 0x85 →
        exec (.hdrchk k (p.set 0 b)) s = .next { s with response := some (.value (.byte 0)) })

/-- R103: CKVAL: its request, and its verdict in every state. -/
def Obligations.CkvalResult : Prop :=
  ∀ (s : State) (p : Packet),
    RequestOf (.ckval p) (.word 0x0011 :: p.toList.map .byte) ∧
    exec (.ckval p) s = .next { s with
      response := some (.value (.byte
        (if checksum #v[p[1], p[2], p[3], p[4], p[5], p[6], p[7]] = p[8] then 1 else 0))) }

/-- R104: HDRCHK: its two requests, its verdict in every state, and its refusal for any other kind. -/
def Obligations.HdrchkResult : Prop :=
  ∀ (s : State) (k : Byte) (p : Packet),
    RequestOf (.hdrchk 0x86 p) (.word 0x8612 :: p.toList.map .byte) ∧
    RequestOf (.hdrchk 0x85 p) (.word 0x8512 :: p.toList.map .byte) ∧
    (k = 0x86 ∨ k = 0x85 →
      exec (.hdrchk k p) s = .next { s with
        response := some (.value (.byte (if p[0] = 0xFF ∧ p[1] = k then 1 else 0))) }) ∧
    (k ≠ 0x86 → k ≠ 0x85 → exec (.hdrchk k p) s = .refused .badKind)

/-- R106: CHECK: its two requests; the checksum first, then the header, with the whole state each
outcome leaves, and the two refusals, the kind's before the phase's. -/
def Obligations.CheckResult : Prop :=
  RequestOf (.check 0x86) [.word 0x8613] ∧ RequestOf (.check 0x85) [.word 0x8513] ∧
  ∀ (s : State) (k : Byte),
    (k = 0x86 ∨ k = 0x85 → ∀ p, s.phase = .complete → s.out = some p →
      exec (.check k) s =
        if checksum (interiorBytes p) ≠ p[8] then
          .next { s with
            phase := .failed, err := some ⟨.invalidChecksum, none⟩, cand := [], needed := 9,
            out := none, response := some (.error .invalidChecksum none) }
        else if ¬(p[0] = 0xFF ∧ p[1] = k) then
          .next { s with
            phase := .failed, err := some ⟨.invalidPacket, none⟩, cand := [], needed := 9,
            out := none, response := some (.error .invalidPacket none) }
        else .next { s with response := some .ok }) ∧
    (k ≠ 0x86 → k ≠ 0x85 → exec (.check k) s = .refused .badKind) ∧
    (k = 0x86 ∨ k = 0x85 → s.phase ≠ .complete → exec (.check k) s = .refused .badPhase)

/-- R108: GENCMD: its two requests; in every phase, the ROM's constants (R30), and its refusal for any
other kind. -/
def Obligations.GencmdResult : Prop :=
  RequestOf (.gencmd 0x86) [.word 0x8620] ∧ RequestOf (.gencmd 0x85) [.word 0x8520] ∧
  ∀ s : State,
    (s.rom = CommandRom.contents →
      exec (.gencmd 0x86) s = .next { s with
        response := some (.value (.packet #v[0xFF, 0x01, 0x86, 0x00, 0x00, 0x00, 0x00, 0x00, 0x79])) } ∧
      exec (.gencmd 0x85) s = .next { s with
        response := some (.value (.packet #v[0xFF, 0x01, 0x85, 0x00, 0x00, 0x00, 0x00, 0x00, 0x7A])) }) ∧
    (∀ k : Byte, k ≠ 0x86 → k ≠ 0x85 → exec (.gencmd k) s = .refused .badKind)

/-- R110: CKSUM, CKVAL, HDRCHK and GENCMD answer in every phase, and the same whatever the framing state
is; and whatever operation follows answers exactly as it would have without them. -/
def Obligations.CodecIndependentOfFramer : Prop :=
  ∀ (s : State) (b : Seven) (p : Packet) (k : Byte), k = 0x86 ∨ k = 0x85 →
    ∀ i ∈ [Instr.cksum b, .ckval p, .hdrchk k p, .gencmd k],
      (∃ t, exec i s = .next t ∧ t.framing = s.framing ∧ ∀ j, exec j t = exec j s) ∧
      ∀ u : State, u.rom = s.rom → responseOf (exec i u) = responseOf (exec i s)

/-- R59: the operations that change no state, a passing CHECK among them, leave all but the response, and
repeating one gives the same response and the same state. -/
def Obligations.ReadOnlyOperationsRepeat : Prop :=
  ∀ (s t : State) (i : Instr), exec i s = .next t →
    (match i with
      | .rdstat | .rdout | .cksum _ | .ckval _ | .hdrchk _ _ | .gencmd _ => True
      | .check _ => t.response = some .ok
      | _ => False) →
    t = { s with response := t.response } ∧ exec i t = .next t

/-! The packet rows -/

/-- R53, R72, R73 (log entry 4): a packet row is the chunk of its nine bytes, and it completes in every
state that keeps the invariant with framing in progress. -/
def Obligations.PacketRowsComplete : Prop :=
  ∀ (s : State) (tail : Seven), s.Inv → framingPhase s.phase = true → payloadSize ≤ s.cfg.scratchSize →
    (∃ t, exec .readCo2 s = .next t ∧
      exec (.chunk [0xFF, 0x01, 0x86, 0x00, 0x00, 0x00, 0x00, 0x00, 0x79]) s = .next t) ∧
    (∃ t, exec .readRawCo2 s = .next t ∧
      exec (.chunk [0xFF, 0x01, 0x85, 0x00, 0x00, 0x00, 0x00, 0x00, 0x7A]) s = .next t) ∧
    (∃ t, exec (.rspFinal tail) s = .next t ∧ exec (.chunk (0xFF :: 0x86 :: tail.toList)) s = .next t) ∧
    (∃ t, exec (.rspRaw tail) s = .next t ∧ exec (.chunk (0xFF :: 0x85 :: tail.toList)) s = .next t)

/-- R109: both commands are valid packets, both fail HDRCHK for either kind, and a command echoed back
into the framer is reported as `InvalidPacket`. -/
def Obligations.EchoedCommandIsInvalidPacket : Prop :=
  ∀ (s : State) (k : Byte), k = 0x86 ∨ k = 0x85 →
    checksum #v[0x01, 0x86, 0x00, 0x00, 0x00, 0x00, 0x00] = 0x79 ∧
    checksum #v[0x01, 0x85, 0x00, 0x00, 0x00, 0x00, 0x00] = 0x7A ∧
    packetValid readCo2Packet = true ∧ packetValid readRawCo2Packet = true ∧
    (∀ p ∈ [readCo2Packet, readRawCo2Packet],
      exec (.hdrchk k p) s = .next { s with response := some (.value (.byte 0)) }) ∧
    (s.Inv → s.phase = .hunt → payloadSize ≤ s.cfg.scratchSize → ∀ i ∈ [Instr.readCo2, .readRawCo2],
      execAll [i, .check k] s = .next { s with
        phase := .failed, err := some ⟨.invalidPacket, none⟩, cand := [], needed := 9, out := none,
        response := some (.error .invalidPacket none) })

/-- R73, R106, R107: a response packet free of further markers, received whole in HUNT and then checked
for a kind, is accepted exactly if its checksum holds and its row is that kind's; a bad checksum is
reported before a wrong kind. -/
def Obligations.ResponsePacketChecked : Prop :=
  ∀ (s : State) (tail : Seven) (k : Byte), s.Inv → s.phase = .hunt →
    payloadSize ≤ s.cfg.scratchSize → marker ∉ tail.toList → k = 0x86 ∨ k = 0x85 →
    ∀ row ∈ [(Instr.rspFinal tail, Kind.final), (Instr.rspRaw tail, Kind.raw)],
      ∃ t, execAll [row.1, .check k] s = .next t ∧
        t.response = some
          (if checksumValid (responsePacket row.2 tail) = false then .error .invalidChecksum none
          else if kindCode row.2 ≠ k then .error .invalidPacket none
          else .ok)

/-! Errors and the machine as a whole -/

/-- R205: the error entry is the only way into FAILED, and what it writes. -/
def Obligations.FailIsTheOnlyWayIntoFailed : Prop :=
  ∀ (s t : State) (i : Instr), exec i s = .next t → s.phase ≠ .failed → t.phase = .failed →
    ∃ code cause, t = { s with
      phase := .failed, err := some ⟨code, cause⟩, cand := [], needed := 9, out := none,
      response := some (.error code cause) }

/-- R200 to R204, R206: which operation raises which error, and on what; the host's two codes are raised
by none. -/
def Obligations.ErrorsRaisedBy : Prop :=
  ∀ (s t : State) (i : Instr), s.Inv → exec i s = .next t → s.phase ≠ .failed → t.phase = .failed →
    (t.err = some ⟨.invalidChecksum, none⟩ ∧
      ∃ k p, i = .check k ∧ s.out = some p ∧ p[8] ≠ checksum (interiorBytes p)) ∨
    (t.err = some ⟨.invalidPacket, none⟩ ∧
      ∃ k p, i = .check k ∧ s.out = some p ∧ p[8] = checksum (interiorBytes p) ∧
        (p[0] ≠ 0xFF ∨ p[1] ≠ k)) ∨
    (t.err = some ⟨.readingEOF, none⟩ ∧ i = .eof ∧ framingPhase s.phase = true) ∨
    (∃ cause, t.err = some ⟨.reading, some cause⟩ ∧ i = .rderr cause ∧ framingPhase s.phase = true)

/-- R210: FAILED is left only by START, to HUNT, or by CANCEL, to IDLE; until then `err` holds. -/
def Obligations.FailedLeftOnlyByStartOrCancel : Prop :=
  ∀ (s t : State) (i : Instr), s.phase = .failed → exec i s = .next t →
    (i = .start ∧ t.phase = .hunt) ∨ (i = .cancel ∧ t.phase = .idle) ∨
      (t.phase = .failed ∧ t.err = s.err)

/-- R211: in FAILED, every request that could raise an error, or read the packet, is refused. -/
def Obligations.ErrorsDoNotNest : Prop :=
  ∀ (s : State) (i : Instr), s.phase = .failed → i.wellFormed s.cfg = true →
    (match i with
      | .chunk _ | .eof | .rderr _ | .check _ | .rdout => True
      | _ => False) →
    exec i s = .refused .badPhase

/-- 41_framer.md, the table of transitions: no operation makes another move between phases. That a
packet row makes CHUNK's moves rests on the model's choice to read it as a chunk (log entry 4). -/
def Obligations.PhaseTransitions : Prop :=
  ∀ (s t : State) (i : Instr), exec i s = .next t → transitionAllowed i s.phase t.phase = true

/-- R30, R5 to R9: no operation writes the ROM, a parameter, or what the host has yet to be heard on. -/
def Obligations.RomAndParametersNeverWritten : Prop :=
  ∀ (s t : State) (i : Instr), exec i s = .next t →
    t.rom = s.rom ∧ t.cfg = s.cfg ∧ t.inbox = s.inbox

/-- R87, R14: every operation performed returns exactly one response, and it is never a refusal; the
answer depends on nothing but the operation and the state before it, the last response aside. -/
def Obligations.EveryOperationResponds : Prop :=
  ∀ (s t : State) (i : Instr), exec i s = .next t →
    (∃ r, t.response = some r ∧ ∀ reason, r ≠ .refused reason) ∧
    ∀ last, exec i { s with response := last } = .next t

/-- R10: no rule inspects a cause: renaming causes in the state, what is presented and the operation
renames the answer, and changes nothing else. That causes have tokens to be told apart by is the model's
choice (log entry 8). -/
def Obligations.CausesNeverInspected : Prop :=
  ∀ (f : Cause → Cause) (s : State) (i : Instr),
    exec (mapCauseInstr f i) (s.mapCause f) = mapResult (State.mapCause f) (exec i s) ∧
    step (s.mapCause f) = mapResult (State.mapCause f) (step s)

/-- R24 to R26, R28, R30, R33: the invariant holds after reset. -/
def Obligations.ResetKeepsInvariant : Prop := State.reset.Inv

/-- R24 to R26, R28, R30: every step keeps the invariant. -/
def Obligations.StepKeepsInvariant : Prop :=
  ∀ s t : State, s.Inv → step s = .next t → t.Inv

/-! The whole exchange -/

/-- R171, R144: an exchange, in either of R171's orders, whose one read ends with a valid response of the
right kind hands that packet over, and the command written is the ROM's (log entry 9). -/
def Obligations.CleanTransactionHandsPacketOver : Prop :=
  ∀ (order : TransactionOrder) (s : State) (kind : Kind) (earlier : List Byte) (p : Packet), s.Inv →
    legalPhase .start s.phase = true → wideRescan s.cfg.rescan = true →
    (earlier ++ p.toList).length ≤ s.cfg.scratchSize → marker ∉ p.toList.tail →
    packetValid p = true → p[1] = kindCode kind →
    ∃ t, transaction order kind none none [.bytes (earlier ++ p.toList)] s =
        (some (romRead CommandRom.contents kind), .handed p t) ∧
      t.phase = .complete ∧ t.out = some p

/-- R173, R208, R207: a failed write or flush ends the exchange with its own code, before any read. With
the steps in R171's order it leaves the framing state as it was; with START first (R171: "Steps 1 and 4
may be swapped") it leaves what START left, in HUNT (log entry 9). -/
def Obligations.HostErrorsComeFirst : Prop :=
  ∀ (s : State) (kind : Kind) (c : Cause) (flushError : Option Cause) (reads : List ReadResult),
    (∃ t, t.framing = s.framing ∧
      (transaction .commandFirst kind (some c) flushError reads s).2 =
        .failed .writingToUart (some c) t ∧
      (transaction .commandFirst kind none (some c) reads s).2 = .failed .flushingUart (some c) t) ∧
    (legalPhase .start s.phase = true →
      ∃ t, t.framing = ⟨.hunt, [], 9, none, none⟩ ∧
        (transaction .startFirst kind (some c) flushError reads s).2 =
          .failed .writingToUart (some c) t ∧
        (transaction .startFirst kind none (some c) reads s).2 = .failed .flushingUart (some c) t)

/-- R180: the outcome of an exchange, in either order, does not depend on what any earlier exchange left
in the block; with START first, not even where a write or a flush fails (log entry 9). -/
def Obligations.TransactionsAreIndependent : Prop :=
  ∀ (s t : State) (kind : Kind) (writeError flushError : Option Cause) (reads : List ReadResult),
    legalPhase .start s.phase = true → legalPhase .start t.phase = true →
    s.cfg = t.cfg → s.rom = t.rom → s.inbox = t.inbox →
    transaction .commandFirst kind none none reads s =
        transaction .commandFirst kind none none reads t ∧
      transaction .startFirst kind writeError flushError reads s =
        transaction .startFirst kind writeError flushError reads t

/-- R171: where no write and no flush fails, the two orders of the steps end an exchange alike, with the
same command and the same end: in every state in which START is legal, and once a read has returned
(until then the two differ in the last response alone; log entry 9). -/
def Obligations.TransactionOrdersAgree : Prop :=
  ∀ (s : State) (kind : Kind) (reads : List ReadResult), legalPhase .start s.phase = true →
    reads ≠ [] →
    transaction .startFirst kind none none reads s = transaction .commandFirst kind none none reads s
end

