-- ==== Sys2Proof/Laws/Operands.lean ====
section
/-!
SUPPORT. What each shared byte-level function answers.
-/

namespace Sys2Proof.Machine

/-- A kind operand is accepted exactly if it is one of the two kind values (R74). -/
theorem kindOfByte?_eq_some {k : Byte} {kind : Kind} : kindOfByte? k = some kind ↔ k = kindCode kind := by
  by_cases h1 : k = 0x86
  · subst h1; cases kind <;> decide
  · by_cases h2 : k = 0x85
    · subst h2; cases kind <;> decide
    · cases kind <;> simp_all [kindOfByte?, kindCode]

theorem kindOfByte?_kindCode (kind : Kind) : kindOfByte? (kindCode kind) = some kind :=
  kindOfByte?_eq_some.2 rfl

/-- Every other kind operand is rejected (R83). -/
theorem kindOfByte?_eq_none {k : Byte} : kindOfByte? k = none ↔ k ≠ 0x86 ∧ k ≠ 0x85 := by
  by_cases h1 : k = 0x86
  · subst h1; decide
  · by_cases h2 : k = 0x85
    · subst h2; decide
    · simp_all [kindOfByte?, kindCode]

/-- A list is an `n`-byte operand exactly if it has `n` bytes. -/
theorem exactly?_eq_some {n : Nat} {l : List Byte} {v : Vector Byte n} :
    exactly? n l = some v ↔ v.toList = l := by
  unfold exactly?
  split_ifs with h
  · constructor
    · rintro ⟨⟩; rfl
    · rintro rfl; rfl
  · refine iff_of_false (by simp) ?_
    rintro rfl
    simp at h

theorem exactly?_toList {n : Nat} (v : Vector Byte n) : exactly? n v.toList = some v :=
  exactly?_eq_some.2 rfl

theorem exactly?_of_length {n : Nat} {l : List Byte} (h : l.length = n) :
    ∃ v : Vector Byte n, exactly? n l = some v ∧ v.toList = l :=
  ⟨⟨l.toArray, by simpa using h⟩, by simp [exactly?, h], rfl⟩

/-- The bytes of a packet, by index. -/
theorem packet_toList (p : Packet) :
    p.toList = [p[0], p[1], p[2], p[3], p[4], p[5], p[6], p[7], p[8]] := by
  apply List.ext_getElem <;> simp
  rintro i h
  interval_cases i <;> rfl

/-- Seven bytes, by index. -/
theorem seven_toList (b : Seven) : b.toList = [b[0], b[1], b[2], b[3], b[4], b[5], b[6]] := by
  apply List.ext_getElem <;> simp
  rintro i h
  interval_cases i <;> rfl

/-- The sum modulo 256 is the residue of the exact sum (R100). -/
theorem toNat_sumBytes (l : List Byte) : (sumBytes l).toNat = (l.map BitVec.toNat).sum % 256 := by
  induction l with
  | nil => rfl
  | cons b t ih => simp [sumBytes, BitVec.toNat_add, ih]

/-- The sum of two lists. -/
theorem sumBytes_append (l m : List Byte) : sumBytes (l ++ m) = sumBytes l + sumBytes m := by
  induction l with
  | nil => simp [sumBytes]
  | cons b t ih => simp [sumBytes, ih, BitVec.add_assoc]

/-- Complement-plus-one is negation modulo 256 (R101). -/
theorem complementPlusOne_eq_neg (x : Byte) : complementPlusOne x = -x :=
  (BitVec.neg_eq_not_add x).symm

/-- A found index lies at or above the floor, in the list, holds the value, and is the last that
does (R12). -/
theorem lastIndexFrom_some {v : Byte} {lo i r : Nat} {l : List Byte}
    (h : lastIndexFrom v lo i l = some r) :
    i ≤ r ∧ lo ≤ r ∧ ∃ pre tail, l = pre ++ v :: tail ∧ r = i + pre.length ∧ v ∉ tail := by
  induction l generalizing i with
  | nil => simp [lastIndexFrom] at h
  | cons b t ih =>
    rw [lastIndexFrom] at h
    split at h
    · next j hj =>
      cases h
      obtain ⟨h1, h2, pre, tail, rfl, hr, hv⟩ := ih hj
      exact ⟨by omega, h2, b :: pre, tail, rfl, by simp; omega, hv⟩
    · next hn =>
      split_ifs at h with hb
      cases h
      obtain ⟨hlo, rfl⟩ := hb
      refine ⟨le_refl _, hlo, [], t, rfl, rfl, fun hm => ?_⟩
      obtain ⟨pre, tail, rfl⟩ := List.append_of_mem hm
      clear ih
      have : ∀ (pre : List Byte) (k : Nat), lo ≤ k →
          lastIndexFrom b lo k (pre ++ b :: tail) ≠ none := by
        intro pre
        induction pre with
        | nil =>
          intro k hk
          simp only [List.nil_append, lastIndexFrom]
          split <;> simp_all
        | cons a u ih =>
          intro k hk
          simp only [List.cons_append, lastIndexFrom]
          split
          · simp
          · next h => exact absurd h (ih (k + 1) (by omega))
      exact this pre (r + 1) (by omega) hn

/-- Nothing is found exactly if the value does not stand at or above the floor (R12). -/
theorem lastIndexFrom_none {v : Byte} {lo i : Nat} {l : List Byte} :
    lastIndexFrom v lo i l = none ↔ v ∉ l.drop (lo - i) := by
  induction l generalizing i with
  | nil => simp [lastIndexFrom]
  | cons b t ih =>
    rw [lastIndexFrom]
    rcases h : lastIndexFrom v lo (i + 1) t with _ | j
    · rw [ih] at h
      simp only
      rcases Nat.lt_or_ge i lo with hlt | hge
      · obtain ⟨d, rfl⟩ : ∃ d, lo = i + 1 + d := ⟨lo - (i + 1), by omega⟩
        have e1 : i + 1 + d - i = d + 1 := by omega
        have e2 : i + 1 + d - (i + 1) = d := by omega
        rw [e2] at h
        have hn : ¬ (i + 1 + d ≤ i ∧ b = v) := by omega
        simp [e1, h, hn]
      · have e1 : lo - i = 0 := by omega
        have e2 : lo - (i + 1) = 0 := by omega
        rw [e2] at h
        simp only [List.drop_zero] at h
        simp only [hge, e1, List.drop_zero, List.mem_cons, true_and]
        by_cases hb : b = v
        · simp [hb]
        · simp only [if_neg hb, true_iff]
          rintro (rfl | hm)
          · exact hb rfl
          · exact h hm
    · have hne : lastIndexFrom v lo (i + 1) t ≠ none := by simp [h]
      rw [Ne, ih, not_not] at hne
      simp only [reduceCtorEq, false_iff, not_not]
      rcases Nat.lt_or_ge i lo with hlt | hge
      · obtain ⟨d, rfl⟩ : ∃ d, lo = i + 1 + d := ⟨lo - (i + 1), by omega⟩
        have e1 : i + 1 + d - i = d + 1 := by omega
        have e2 : i + 1 + d - (i + 1) = d := by omega
        rw [e2] at hne
        simpa [e1] using hne
      · have e1 : lo - i = 0 := by omega
        have e2 : lo - (i + 1) = 0 := by omega
        rw [e2] at hne
        simp only [List.drop_zero] at hne
        simp [e1, hne]

/-- A marker search finds nothing exactly in a list without the value. -/
theorem lastIndexOf_zero_none {s : List Byte} {v : Byte} : lastIndexOf s v 0 = none ↔ v ∉ s := by
  simp [lastIndexOf, lastIndexFrom_none]

/-- The last occurrence is where a list splits into what precedes it and a rest without the value. -/
theorem lastIndexOf_append {pre tail : List Byte} {v : Byte} (h : v ∉ tail) :
    lastIndexOf (pre ++ v :: tail) v 0 = some pre.length := by
  rcases hr : lastIndexOf (pre ++ v :: tail) v 0 with _ | r
  · simp [lastIndexOf_zero_none] at hr
  · obtain ⟨-, -, pre', tail', he, rfl, h'⟩ := lastIndexFrom_some hr
    rw [Nat.zero_add]
    congr 1
    rcases List.append_eq_append_iff.1 he with ⟨a, rfl, ha⟩ | ⟨a, rfl, ha⟩
    · rcases a with _ | ⟨x, a⟩
      · simp
      · simp only [List.cons_append, List.cons.injEq] at ha
        exact absurd (by rw [ha.2]; simp) h
    · rcases a with _ | ⟨x, a⟩
      · simp
      · simp only [List.cons_append, List.cons.injEq] at ha
        exact absurd (by rw [ha.2]; simp) h'

end Sys2Proof.Machine
end

