-- ==== Sys2Proof/Laws/Decode.lean ====
section
/-!
SUPPORT. The fields of a request word, the operation map, and what collecting a payload answers.
-/

namespace Sys2Proof

open Machine

/-- The bits of two joined bytes. -/
theorem getLsbD_joined (hi lo : Byte) (i : Nat) :
    (hi ++ lo : Word).getLsbD i = if i < 8 then lo.getLsbD i else hi.getLsbD (i - 8) := by
  refine (BitVec.getLsbD_append (x := hi) (y := lo) (i := i)).trans ?_
  split_ifs <;> simp_all

/-- `OP` of a request word (R80). -/
@[simp] theorem wordOp_requestWord (op : Op) (arg : Byte) : wordOp (requestWord op arg) = opCode op := by
  apply BitVec.eq_of_getLsbD_eq
  intro i hi
  rw [wordOp, requestWord, BitVec.getLsbD_extractLsb', getLsbD_joined]
  simp [hi]

/-- `ARG` of a request word (R80). -/
@[simp] theorem wordArg_requestWord (op : Op) (arg : Byte) : wordArg (requestWord op arg) = arg := by
  apply BitVec.eq_of_getLsbD_eq
  intro i hi
  rw [wordArg, requestWord, BitVec.getLsbD_extractLsb', getLsbD_joined]
  simp [hi]

/-- A word is its two fields joined (R80). -/
theorem word_eq_joined (w : Word) : w = wordArg w ++ wordOp w := by
  apply BitVec.eq_of_getLsbD_eq
  intro i hi
  rw [getLsbD_joined, wordArg, wordOp, BitVec.getLsbD_extractLsb', BitVec.getLsbD_extractLsb']
  split_ifs with h
  · simp [h]
  · have h8 : i - 8 < 8 := by omega
    have hi' : 8 + (i - 8) = i := by omega
    simp [h8, hi']

/-- The operation map, both ways (R82). -/
theorem opOfCode?_eq_some {b : Byte} {op : Op} : opOfCode? b = some op ↔ b = opCode op := by
  constructor
  · unfold opOfCode?
    intro h
    apply BitVec.eq_of_toNat_eq
    split at h <;> first | (cases h; next hb => rw [hb]; rfl) | cases h
  · rintro rfl; cases op <;> rfl

@[simp] theorem opOfCode?_opCode (op : Op) : opOfCode? (opCode op) = some op :=
  opOfCode?_eq_some.2 rfl

/-- A decoded word names its operation and argument, and an argument is 0 where none is taken. -/
theorem decodeWord_ok {w : Word} {op : Op} {arg : Byte} :
    decodeWord w = .ok (op, arg) ↔
      w = requestWord op arg ∧ (opTakesArg op = false → arg = 0) := by
  unfold decodeWord
  rcases h : opOfCode? (wordOp w) with _ | op'
  · simp only [reduceCtorEq, false_iff, not_and]
    rintro rfl
    simp at h
  · have hw : wordOp w = opCode op' := opOfCode?_eq_some.1 h
    simp only
    split_ifs with hc
    · refine iff_of_false (by simp) ?_
      rintro ⟨rfl, ha⟩
      simp only [wordOp_requestWord, opOfCode?_opCode, Option.some.injEq] at h
      subst h
      simp only [wordArg_requestWord] at hc
      exact hc.2 (ha hc.1)
    · constructor
      · intro he
        simp only [Except.ok.injEq, Prod.mk.injEq] at he
        obtain ⟨rfl, rfl⟩ := he
        refine ⟨?_, fun h0 => ?_⟩
        · rw [requestWord, ← hw]; exact word_eq_joined w
        · by_contra h1; exact hc ⟨h0, h1⟩
      · rintro ⟨rfl, -⟩
        simp only [wordOp_requestWord, opOfCode?_opCode, Option.some.injEq] at h
        subst h
        simp

/-- Payload bytes that are all there are collected (R81). -/
theorem takeBytes_byteItems (bs : List Byte) (rest : List Item) :
    takeBytes bs.length (byteItems bs ++ rest) = .got bs rest := by
  induction bs with
  | nil => rfl
  | cons b t ih =>
    simp only [byteItems, List.map_cons, List.cons_append, List.length_cons, takeBytes]
    rw [show t.map Item.byte = byteItems t from rfl, ih]

theorem takeBytes_of_length {n : Nat} {bs : List Byte} (h : bs.length = n) (rest : List Item) :
    takeBytes n (byteItems bs ++ rest) = .got bs rest := h ▸ takeBytes_byteItems bs rest

/-- What a collected payload was (R81). -/
theorem takeBytes_got {n : Nat} {items : List Item} {bs : List Byte} {rest : List Item}
    (h : takeBytes n items = .got bs rest) : bs.length = n ∧ items = byteItems bs ++ rest := by
  induction n generalizing items bs with
  | zero => simp only [takeBytes, Gathered.got.injEq] at h; obtain ⟨rfl, rfl⟩ := h; exact ⟨rfl, rfl⟩
  | succ n ih =>
    rcases items with _ | ⟨_ | b | _ | _ | _, items⟩ <;> simp only [takeBytes, reduceCtorEq] at h
    split at h
    · next bs' r hr =>
      simp only [Gathered.got.injEq] at h
      obtain ⟨rfl, rfl⟩ := h
      obtain ⟨h1, rfl⟩ := ih hr
      exact ⟨by simp [h1], rfl⟩
    · next hne =>
      exact absurd h (hne _ _)

/-- A payload that is cut short by a reset (R230). -/
theorem takeBytes_resetBy {n : Nat} {bs : List Byte} {rest : List Item} (h : bs.length < n) :
    takeBytes n (byteItems bs ++ .reset :: rest) = .resetBy rest := by
  induction bs generalizing n with
  | nil => cases n with
    | zero => simp at h
    | succ n => rfl
  | cons b t ih => cases n with
    | zero => simp at h
    | succ n =>
      simp only [byteItems, List.map_cons, List.cons_append, takeBytes]
      rw [show t.map Item.byte = byteItems t from rfl, ih (by simpa using h)]

/-- A payload that is not whole yet (R80). -/
theorem takeBytes_incomplete {n : Nat} {bs : List Byte} (h : bs.length < n) :
    takeBytes n (byteItems bs) = .incomplete := by
  induction bs generalizing n with
  | nil => cases n with
    | zero => simp at h
    | succ n => rfl
  | cons b t ih => cases n with
    | zero => simp at h
    | succ n =>
      simp only [byteItems, List.map_cons, takeBytes]
      rw [show t.map Item.byte = byteItems t from rfl, ih (by simpa using h)]

/-- The request of an operation without a payload. -/
theorem fetch_bare {op : Op} {arg : Byte} {i : Instr} (rest : List Item)
    (ha : opTakesArg op = false → arg = 0) (hs : payloadShape op arg = .none)
    (hb : bareInstr op arg = some i) :
    fetch (.word (requestWord op arg) :: rest) = .instr i rest := by
  have hd := decodeWord_ok.2 ⟨rfl, ha⟩
  simp [fetch, hd, decodeRequest, hs, hb, Fetched.ofInstr?]

/-- The request of an operation with a byte payload. -/
theorem fetch_bytes {op : Op} {arg : Byte} {i : Instr} {n : Nat} {bs : List Byte} (rest : List Item)
    (ha : opTakesArg op = false → arg = 0) (hs : payloadShape op arg = .bytes n)
    (hl : bs.length = n) (hb : bytesInstr op arg bs = some i) :
    fetch (.word (requestWord op arg) :: (byteItems bs ++ rest)) = .instr i rest := by
  have hd := decodeWord_ok.2 ⟨rfl, ha⟩
  simp [fetch, hd, decodeRequest, hs, takeBytes_of_length hl, hb, Fetched.ofInstr?]

/-- The request of RDERR. -/
theorem fetch_cause (c : Cause) (rest : List Item) :
    fetch (.word (requestWord .rderr 0) :: .cause c :: rest) = .instr (.rderr c) rest := by
  have hd : decodeWord (requestWord .rderr 0) = .ok (.rderr, 0) := decodeWord_ok.2 ⟨rfl, fun _ => rfl⟩
  rw [fetch, hd]
  rfl

/-- A packet come whole in one read (R172). -/
theorem fetch_packet {p : Packet} {i : Instr} (rest : List Item) (h : decodePacket p = some i) :
    fetch (packetItems p ++ rest) = .instr i rest := by
  have hl : p.toList = p[0] :: [p[1], p[2], p[3], p[4], p[5], p[6], p[7], p[8]] := packet_toList p
  have he : exactly? 9 (p[0] :: [p[1], p[2], p[3], p[4], p[5], p[6], p[7], p[8]]) = some p :=
    exactly?_eq_some.2 hl
  simp only [packetItems, hl, List.singleton_append, fetch, decodeRead, he, Option.bind_some, h]

end Sys2Proof
end

