-- ==== Sys2Proof/Laws/State.lean ====
section
/-!
SUPPORT. What each named update of the state writes, one lemma for each field of each update.
-/

namespace Sys2Proof.Machine

variable (s : State) (ph : Phase) (code : ErrorCode) (cause : Option Cause) (rest : List Item)

@[simp] theorem freshFraming_cfg : (freshFraming ph s).cfg = s.cfg := rfl
@[simp] theorem freshFraming_phase : (freshFraming ph s).phase = ph := rfl
@[simp] theorem freshFraming_cand : (freshFraming ph s).cand = [] := rfl
@[simp] theorem freshFraming_needed : (freshFraming ph s).needed = payloadSize := rfl
@[simp] theorem freshFraming_out : (freshFraming ph s).out = none := rfl
@[simp] theorem freshFraming_err : (freshFraming ph s).err = none := rfl
@[simp] theorem freshFraming_rom : (freshFraming ph s).rom = s.rom := rfl
@[simp] theorem freshFraming_inbox : (freshFraming ph s).inbox = s.inbox := rfl
@[simp] theorem freshFraming_response : (freshFraming ph s).response = s.response := rfl

@[simp] theorem failState_cfg : (failState code cause s).cfg = s.cfg := rfl
@[simp] theorem failState_phase : (failState code cause s).phase = .failed := rfl
@[simp] theorem failState_cand : (failState code cause s).cand = [] := rfl
@[simp] theorem failState_needed : (failState code cause s).needed = payloadSize := rfl
@[simp] theorem failState_out : (failState code cause s).out = none := rfl
@[simp] theorem failState_err : (failState code cause s).err = some ⟨code, cause⟩ := rfl
@[simp] theorem failState_rom : (failState code cause s).rom = s.rom := rfl
@[simp] theorem failState_inbox : (failState code cause s).inbox = s.inbox := rfl
@[simp] theorem failState_response : (failState code cause s).response = s.response := rfl

@[simp] theorem resetInput_cfg : (resetInput s rest).cfg = s.cfg := rfl
@[simp] theorem resetInput_phase : (resetInput s rest).phase = .idle := rfl
@[simp] theorem resetInput_cand : (resetInput s rest).cand = [] := rfl
@[simp] theorem resetInput_needed : (resetInput s rest).needed = payloadSize := rfl
@[simp] theorem resetInput_out : (resetInput s rest).out = none := rfl
@[simp] theorem resetInput_err : (resetInput s rest).err = none := rfl
@[simp] theorem resetInput_rom : (resetInput s rest).rom = CommandRom.contents := rfl
@[simp] theorem resetInput_inbox : (resetInput s rest).inbox = rest := rfl
@[simp] theorem resetInput_response : (resetInput s rest).response = none := rfl

end Sys2Proof.Machine
end

