-- ==== Sys2Proof/Laws/Ops.lean ====
section
/-!
SUPPORT. One lemma for each shared operation, saying everything it can answer.
-/

namespace Sys2Proof.Machine

variable {s t : State}

@[simp] theorem respond_next {r : Response} :
    respond r s = .next t ↔ t = { s with response := some r } := by
  simp [respond, eq_comm]

/-- A phase precondition lets the operation through, or refuses (R84). -/
theorem requirePhase_next {b : Bool} {k : Result} :
    requirePhase b k = .next t ↔ b = true ∧ k = .next t := by
  cases b <;> simp [requirePhase]

/-- A kind check lets the two kinds through, or refuses (R83). -/
theorem requireKind_next {k : Byte} {f : Kind → Result} :
    requireKind k f = .next t ↔ ∃ kind, k = kindCode kind ∧ f kind = .next t := by
  unfold requireKind
  rcases h : kindOfByte? k with _ | kind
  · have := kindOfByte?_eq_none.1 h
    simp only [false_iff, not_exists, not_and, reduceCtorEq]
    rintro (_ | _) rfl
    · exact absurd rfl this.1
    · exact absurd rfl this.2
  · have hk := kindOfByte?_eq_some.1 h
    constructor
    · exact fun hf => ⟨kind, hk, hf⟩
    · rintro ⟨kind', hk', hf⟩
      have : kind' = kind := by
        have := kindOfByte?_eq_some.2 hk'
        simp_all
      exact this ▸ hf

@[simp] theorem requireKind_kindCode (kind : Kind) (f : Kind → Result) :
    requireKind (kindCode kind) f = f kind := by
  simp [requireKind, kindOfByte?_kindCode]

/-- A kind check refuses every other byte (R83). -/
theorem requireKind_bad {k : Byte} {f : Kind → Result} (h1 : k ≠ 0x86) (h2 : k ≠ 0x85) :
    requireKind k f = .refused .badKind := by
  simp [requireKind, kindOfByte?_eq_none.2 ⟨h1, h2⟩]

/-- A length check lets 1 to `SCRATCH_SIZE` bytes through, or refuses (R133). -/
theorem requireLength_next {c : List Byte} {k : Result} :
    requireLength s c k = .next t ↔
      1 ≤ c.length ∧ c.length ≤ s.cfg.scratchSize ∧ k = .next t := by
  unfold requireLength
  split_ifs with h
  · simp only [false_iff]
    rintro ⟨_, _, _⟩
    omega
  · constructor
    · exact fun hk => ⟨by omega, by omega, hk⟩
    · exact fun ⟨_, _, hk⟩ => hk

theorem requireLength_ok {c : List Byte} {k : Result} (h1 : 1 ≤ c.length)
    (h2 : c.length ≤ s.cfg.scratchSize) : requireLength s c k = k := by
  unfold requireLength
  split_ifs with h
  · omega
  · rfl

/-- The error entry always answers a next state (R205). -/
theorem fail_next {code : ErrorCode} {cause : Option Cause} :
    fail code cause s = .next t ↔
      t = { failState code cause s with response := some (.error code cause) } := by
  simp [fail]

/-- One pass over a body of exactly the bytes needed (R138). -/
theorem compareBody_equal {policy : Rescan} {cand body : List Byte} {needed : Nat}
    (h : body.length = needed) : compareBody policy cand needed body = .equal (cand ++ body) := by
  simp [compareBody, h]

/-- One pass over a shorter body (R139). -/
theorem compareBody_less {policy : Rescan} {cand body : List Byte} {needed : Nat}
    (h : body.length < needed) :
    compareBody policy cand needed body = .less (cand ++ body) (needed - body.length) := by
  simp [compareBody, h, Nat.ne_of_lt h]

/-- One pass over a longer body without a marker (R140). -/
theorem compareBody_unmarked {policy : Rescan} {cand body : List Byte} {needed : Nat}
    (h : needed < body.length) (hm : marker ∉ body) :
    compareBody policy cand needed body = .discard := by
  have h1 : ¬ body.length = needed := by omega
  have h2 : ¬ body.length < needed := by omega
  have h3 : lastIndexOf body marker (rescanFloor policy cand.isEmpty body.length) = none :=
    lastIndexFrom_none.2 fun hd => hm (List.mem_of_mem_drop hd)
  simp [compareBody, h1, h2, h3]

/-- Where a rescan of a body that begins at its only marker finds it again: with a candidate to
discard, and a window that reaches it (R140, R143). -/
theorem lastIndexOf_body {policy : Rescan} {cand tail : List Byte} (hm : marker ∉ tail) :
    lastIndexOf (marker :: tail) marker
        (rescanFloor policy cand.isEmpty (marker :: tail).length) =
      if cand ≠ [] ∧ restartAllowed policy (tail.length + 1) = true then some 0 else none := by
  have h0 : lastIndexOf (marker :: tail) marker 0 = some 0 := lastIndexOf_append (pre := []) hm
  have h1 : ∀ lo, 1 ≤ lo → lastIndexOf (marker :: tail) marker lo = none := by
    rintro (_ | lo) h
    · omega
    · exact lastIndexFrom_none.2 fun hd => hm (List.mem_of_mem_drop (by simpa using hd))
  rcases cand with _ | ⟨b, cand⟩
  · rw [if_neg (by simp)]
    apply h1
    cases policy <;> simp [rescanFloor]
  · rcases policy with _ | w
    · simpa [rescanFloor, restartAllowed] using h0
    · simp only [rescanFloor, List.isEmpty_cons, Bool.false_eq_true, if_false, List.length_cons,
        Nat.zero_max, restartAllowed, decide_eq_true_eq]
      split_ifs with hw
      · rw [Nat.sub_eq_zero_of_le hw.2, h0]
      · exact h1 _ (by simp at hw; omega)

/-- One pass over a longer body that begins at its only marker (R140, R141). -/
theorem compareBody_marked {policy : Rescan} {cand tail : List Byte} {needed : Nat}
    (h : needed < tail.length + 1) (hm : marker ∉ tail) :
    compareBody policy cand needed (marker :: tail) =
      if cand ≠ [] ∧ restartAllowed policy (tail.length + 1) = true then .restart (marker :: tail)
      else .discard := by
  have h1 : ¬ (marker :: tail).length = needed := by simp; omega
  have h2 : ¬ (marker :: tail).length < needed := by simp; omega
  rw [compareBody, if_neg h1, if_neg h2, lastIndexOf_body hm]
  split_ifs <;> simp

/-- The end of the loop, for a body without a marker: one pass settles it. -/
theorem boundaryLoop_unmarked {policy : Rescan} {cand body : List Byte} {needed n : Nat}
    (hm : marker ∉ body) :
    boundaryLoop policy (n + 1) cand needed body =
      if body.length = needed then some (.equal (cand ++ body))
      else if body.length < needed then some (.less (cand ++ body) (needed - body.length))
      else some .discard := by
  rw [boundaryLoop]
  split_ifs with h1 h2
  · rw [compareBody_equal h1]
  · rw [compareBody_less h2]
  · rw [compareBody_unmarked (by omega) hm]

/-- The end of the loop, for a body that begins at its only marker: two passes settle it (R142), as
the table of R143 says. -/
theorem boundaryLoop_marked {policy : Rescan} {cand tail : List Byte} {needed n : Nat}
    (hm : marker ∉ tail) :
    boundaryLoop policy (n + 2) cand needed (marker :: tail) =
      if tail.length + 1 = needed then some (.equal (cand ++ marker :: tail))
      else if tail.length + 1 < needed then
        some (.less (cand ++ marker :: tail) (needed - (tail.length + 1)))
      else if ¬(cand ≠ [] ∧ restartAllowed policy (tail.length + 1) = true) then some .discard
      else if tail.length + 1 = payloadSize then some (.equal (marker :: tail))
      else if tail.length + 1 < payloadSize then
        some (.less (marker :: tail) (payloadSize - (tail.length + 1)))
      else some .discard := by
  have second : boundaryLoop policy (n + 1) [] payloadSize (marker :: tail) =
      if tail.length + 1 = payloadSize then some (.equal (marker :: tail))
      else if tail.length + 1 < payloadSize then
        some (.less (marker :: tail) (payloadSize - (tail.length + 1)))
      else some .discard := by
    rw [boundaryLoop]
    split_ifs with h4 h5
    · rw [compareBody_equal (by simpa using h4)]; rfl
    · rw [compareBody_less (by simpa using h5)]; rfl
    · rw [compareBody_marked (by omega) hm]; simp
  rw [boundaryLoop]
  by_cases h1 : tail.length + 1 = needed
  · rw [if_pos h1, compareBody_equal (by simpa using h1)]
  rw [if_neg h1]
  by_cases h2 : tail.length + 1 < needed
  · rw [if_pos h2, compareBody_less (by simpa using h2)]; rfl
  rw [if_neg h2, compareBody_marked (by omega) hm]
  by_cases h3 : cand ≠ [] ∧ restartAllowed policy (tail.length + 1) = true
  · rw [if_pos h3, if_neg (not_not.2 h3)]; exact second
  · rw [if_neg h3, if_pos h3]

/-- What the end of a chunk step answers, if it answers a next state. -/
theorem settle_next {o : Option Compared} (h : settle s o = .next t) :
    (∃ p bytes, o = some (.equal bytes) ∧ p.toList = bytes ∧
      t = { s with
        out := some p, cand := [], needed := payloadSize, phase := .complete,
        response := some (.done p) }) ∨
    (∃ cand needed, o = some (.less cand needed) ∧
      t = { s with cand := cand, needed := needed, phase := .accum, response := some .wait }) ∨
    (o = some .discard ∧
      t = { s with cand := [], needed := payloadSize, phase := .hunt, response := some .wait }) := by
  unfold settle at h
  split at h
  · next bytes =>
    split at h
    · next p hp =>
      exact .inl ⟨p, bytes, rfl, exactly?_eq_some.1 hp, respond_next.1 h⟩
    · cases h
  · next cand needed => exact .inr (.inl ⟨cand, needed, rfl, respond_next.1 h⟩)
  · exact .inr (.inr ⟨rfl, respond_next.1 h⟩)
  · cases h
  · cases h

/-- A completed candidate of nine bytes always settles. -/
theorem settle_equal {bytes : List Byte} (h : bytes.length = 9) :
    ∃ p : Packet, p.toList = bytes ∧ settle s (some (.equal bytes)) =
      .next { s with
        out := some p, cand := [], needed := payloadSize, phase := .complete,
        response := some (.done p) } := by
  obtain ⟨p, hp, hl⟩ := exactly?_of_length h
  exact ⟨p, hl, by simp [settle, hp]⟩

/-- A chunk without a marker. -/
theorem chunkStep_unmarked {c : List Byte} (h : marker ∉ c) :
    chunkStep c s =
      if s.cand = [] then respond .wait s
      else settle s (boundaryLoop s.cfg.rescan 2 s.cand s.needed c) := by
  simp [chunkStep, lastIndexOf_zero_none.2 h]

/-- A chunk with a marker, split at its last one. -/
theorem chunkStep_marked {pre tail : List Byte} (h : marker ∉ tail) :
    chunkStep (pre ++ marker :: tail) s =
      if s.cfg.markerReset then settle s (boundaryLoop s.cfg.rescan 2 [] payloadSize (marker :: tail))
      else settle s (boundaryLoop s.cfg.rescan 2 s.cand s.needed (marker :: tail)) := by
  simp [chunkStep, lastIndexOf_append h]

/-- A list has no marker, or splits at its last one. -/
theorem marker_split (c : List Byte) :
    marker ∉ c ∨ ∃ pre tail, c = pre ++ marker :: tail ∧ marker ∉ tail := by
  rcases h : lastIndexOf c marker 0 with _ | r
  · exact .inl (lastIndexOf_zero_none.1 h)
  · obtain ⟨-, -, pre, tail, he, -, hm⟩ := lastIndexFrom_some h
    exact .inr ⟨pre, tail, he, hm⟩

/-- What a consumed chunk answers, if it answers a next state: the length and phase checks passed, and
it was ignored, or settled as one comparison did. -/
theorem consumeChunk_next {c : List Byte} (h : consumeChunk c s = .next t) :
    1 ≤ c.length ∧ c.length ≤ s.cfg.scratchSize ∧ framingPhase s.phase = true ∧
      chunkStep c s = .next t := by
  obtain ⟨h1, h2, h⟩ := requireLength_next.1 h
  obtain ⟨h3, h⟩ := requirePhase_next.1 h
  exact ⟨h1, h2, h3, h⟩

/-- The checks of a chunk, passed. -/
theorem consumeChunk_ok {c : List Byte} (h1 : 1 ≤ c.length) (h2 : c.length ≤ s.cfg.scratchSize)
    (h3 : framingPhase s.phase = true) : consumeChunk c s = chunkStep c s := by
  rw [consumeChunk, requireLength_ok h1 h2, h3, requirePhase, if_pos rfl]

/-- What CHECK answers on a packet, if it answers a next state (R106): always one of three. -/
theorem checkPacket_next {kind : Kind} {p : Packet} (h : checkPacket kind p s = .next t) :
    (checksumValid p = false ∧ fail .invalidChecksum none s = .next t) ∨
    (checksumValid p = true ∧ headerValid p kind = false ∧ fail .invalidPacket none s = .next t) ∨
    (checksumValid p = true ∧ headerValid p kind = true ∧ t = { s with response := some .ok }) := by
  unfold checkPacket at h
  split_ifs at h with h1 h2
  · exact .inl ⟨h1, h⟩
  · exact .inr (.inl ⟨by simpa using h1, h2, h⟩)
  · exact .inr (.inr ⟨by simpa using h1, by simpa using h2, respond_next.1 h⟩)

end Sys2Proof.Machine
end

