-- ==== Sys2Proof/Laws/Exec.lean ====
section
/-!
SUPPORT. What each operation did, if it answered a next state: one inversion lemma for each shape of
meaning.
-/

namespace Sys2Proof.Machine

variable {s t : State}

/-- The four ways a chunk step can end (R135, R138, R139, R140). -/
inductive ChunkEffect (s : State) : State → Prop where
  | ignored : s.cand = [] → ChunkEffect s { s with response := some .wait }
  | completed (p : Packet) : ChunkEffect s { s with
      out := some p, cand := [], needed := payloadSize, phase := .complete,
      response := some (.done p) }
  | extended (cand : List Byte) (needed : Nat) : ChunkEffect s { s with
      cand := cand, needed := needed, phase := .accum, response := some .wait }
  | discarded : ChunkEffect s { s with
      cand := [], needed := payloadSize, phase := .hunt, response := some .wait }

/-- A settled comparison ended the chunk step in one of three ways. -/
theorem settle_effect {o : Option Compared} (h : settle s o = .next t) : ChunkEffect s t := by
  rcases settle_next h with ⟨p, _, _, _, rfl⟩ | ⟨cand, needed, _, rfl⟩ | ⟨_, rfl⟩
  · exact .completed p
  · exact .extended cand needed
  · exact .discarded

/-- A chunk step ended in one of four ways. -/
theorem chunkStep_next {c : List Byte} (h : chunkStep c s = .next t) : ChunkEffect s t := by
  unfold chunkStep at h
  split at h
  · split_ifs at h with hc
    · rw [respond_next] at h
      exact h ▸ .ignored hc
    · exact settle_effect h
  · split_ifs at h
    · exact settle_effect h
    · exact settle_effect h

theorem execStart_next (h : execStart s = .next t) :
    framingPhase s.phase = false ∧ t = { freshFraming .hunt s with response := some .ok } := by
  obtain ⟨h1, h2⟩ := requirePhase_next.1 h
  exact ⟨by simpa using h1, respond_next.1 h2⟩

theorem execEof_next (h : execEof s = .next t) :
    framingPhase s.phase = true ∧
      t = { failState .readingEOF none s with response := some (.error .readingEOF none) } := by
  obtain ⟨h1, h2⟩ := requirePhase_next.1 h
  exact ⟨h1, fail_next.1 h2⟩

theorem execRderr_next {cause : Cause} (h : execRderr cause s = .next t) :
    framingPhase s.phase = true ∧
      t = { failState .reading (some cause) s with
        response := some (.error .reading (some cause)) } := by
  obtain ⟨h1, h2⟩ := requirePhase_next.1 h
  exact ⟨h1, fail_next.1 h2⟩

theorem execCancel_next (h : execCancel s = .next t) :
    t = { freshFraming .idle s with response := some .ok } := respond_next.1 h

theorem execRdstat_next (h : execRdstat s = .next t) :
    ∃ w, statusWord? s = some w ∧ t = { s with response := some (.value (.status w)) } := by
  unfold execRdstat at h
  split at h
  · next w hw => exact ⟨w, hw, respond_next.1 h⟩
  · cases h

theorem execRdout_next (h : execRdout s = .next t) :
    s.phase = .complete ∧ ∃ p, s.out = some p ∧
      t = { s with response := some (.value (.packet p)) } := by
  obtain ⟨h1, h2⟩ := requirePhase_next.1 h
  refine ⟨by simpa using h1, ?_⟩
  split at h2
  · next p hp => exact ⟨p, hp, respond_next.1 h2⟩
  · cases h2

theorem execHdrchk_next {k : Byte} {p : Packet} (h : execHdrchk k p s = .next t) :
    ∃ kind, k = kindCode kind ∧ t = { s with response := some (.value (verdict (headerValid p kind))) } := by
  obtain ⟨kind, hk, h2⟩ := requireKind_next.1 h
  exact ⟨kind, hk, respond_next.1 h2⟩

theorem execGencmd_next {k : Byte} (h : execGencmd k s = .next t) :
    ∃ kind, k = kindCode kind ∧ t = { s with response := some (.value (.packet (romRead s.rom kind))) } := by
  obtain ⟨kind, hk, h2⟩ := requireKind_next.1 h
  exact ⟨kind, hk, respond_next.1 h2⟩

theorem execCheck_next {k : Byte} (h : execCheck k s = .next t) :
    ∃ kind p, k = kindCode kind ∧ s.phase = .complete ∧ s.out = some p ∧
      checkPacket kind p s = .next t := by
  obtain ⟨kind, hk, h2⟩ := requireKind_next.1 h
  obtain ⟨h3, h4⟩ := requirePhase_next.1 h2
  split at h4
  · next p hp => exact ⟨kind, p, hk, by simpa using h3, hp, h4⟩
  · cases h4

/-- What any operation can do to the state: respond only, begin or abandon a framing, enter FAILED, or
end a chunk step. -/
inductive Effect (s : State) : State → Prop where
  | responded (r : Response) : Effect s { s with response := some r }
  | started : framingPhase s.phase = false →
      Effect s { freshFraming .hunt s with response := some .ok }
  | cancelled : Effect s { freshFraming .idle s with response := some .ok }
  | failed (code : ErrorCode) (cause : Option Cause) :
      Effect s { failState code cause s with response := some (.error code cause) }
  | chunk {t : State} : framingPhase s.phase = true → ChunkEffect s t → Effect s t

theorem consumeChunk_effect {c : List Byte} (h : consumeChunk c s = .next t) : Effect s t := by
  obtain ⟨-, -, hp, hs⟩ := consumeChunk_next h
  exact .chunk hp (chunkStep_next hs)

/-- Every operation that answered a next state had one of these effects. -/
theorem exec_next {i : Instr} (h : exec i s = .next t) : Effect s t := by
  cases i with
  | start => obtain ⟨h1, rfl⟩ := execStart_next h; exact .started h1
  | chunk c => exact consumeChunk_effect h
  | eof => obtain ⟨-, rfl⟩ := execEof_next h; exact .failed _ _
  | rderr c => obtain ⟨-, rfl⟩ := execRderr_next h; exact .failed _ _
  | cancel => rw [execCancel_next h]; exact .cancelled
  | rdstat => obtain ⟨w, -, rfl⟩ := execRdstat_next h; exact .responded _
  | rdout => obtain ⟨-, p, -, rfl⟩ := execRdout_next h; exact .responded _
  | cksum b => rw [respond_next.1 h]; exact .responded _
  | ckval p => rw [respond_next.1 h]; exact .responded _
  | hdrchk k p => obtain ⟨kind, -, rfl⟩ := execHdrchk_next h; exact .responded _
  | check k =>
    obtain ⟨kind, p, -, -, -, hc⟩ := execCheck_next h
    rcases checkPacket_next hc with ⟨-, hf⟩ | ⟨-, -, hf⟩ | ⟨-, -, rfl⟩
    · rw [fail_next.1 hf]; exact .failed _ _
    · rw [fail_next.1 hf]; exact .failed _ _
    · exact .responded _
  | gencmd k => obtain ⟨kind, -, rfl⟩ := execGencmd_next h; exact .responded _
  | readCo2 => exact consumeChunk_effect h
  | readRawCo2 => exact consumeChunk_effect h
  | rspFinal tail => exact consumeChunk_effect h
  | rspRaw tail => exact consumeChunk_effect h

end Sys2Proof.Machine
end

