-- ==== Sys2Proof/Laws/Flags.lean ====
section
/-!
SUPPORT. The fields of the status word.
-/

namespace Sys2Proof.Machine

variable (ph : BitVec 3) (n e l : BitVec 4)

/-- The bits of the status word, field by field (R29). -/
theorem getLsbD_statusFields (i : Nat) :
    (statusFields ph n e l).getLsbD i =
      if i < 3 then ph.getLsbD i
      else if i < 4 then false
      else if i < 8 then n.getLsbD (i - 4)
      else if i < 12 then e.getLsbD (i - 8)
      else l.getLsbD (i - 12) := by
  have h : (statusFields ph n e l).getLsbD i =
      ((((l ++ e) ++ n) ++ (0 : BitVec 1)) ++ ph).getLsbD i := rfl
  rw [h, BitVec.getLsbD_append, BitVec.getLsbD_append, BitVec.getLsbD_append, BitVec.getLsbD_append]
  by_cases h1 : i < 3
  · simp [h1]
  by_cases h2 : i < 4
  · obtain rfl : i = 3 := by omega
    rfl
  have h2' : ¬ i - 3 < 1 := by omega
  by_cases h3 : i < 8
  · have e3 : i - 3 - 1 = i - 4 := by omega
    have h3' : i - 4 < 4 := by omega
    simp only [h1, h2, h2', h3, h3', e3, if_true, if_false]
  have h3' : ¬ i - 3 - 1 < 4 := by omega
  by_cases h4 : i < 12
  · have e4 : i - 3 - 1 - 4 = i - 8 := by omega
    have h4' : i - 8 < 4 := by omega
    simp only [h1, h2, h2', h3, h3', h4, h4', e4, if_true, if_false]
  · have h4' : ¬ i - 3 - 1 - 4 < 4 := by omega
    have e4 : i - 3 - 1 - 4 - 4 = i - 12 := by omega
    simp [h1, h2, h2', h3, h3', h4, h4', e4]

theorem statusFields_phase : (statusFields ph n e l).extractLsb' 0 3 = ph := by
  apply BitVec.eq_of_getLsbD_eq
  intro i hi
  rw [BitVec.getLsbD_extractLsb', getLsbD_statusFields]
  simp [hi]

theorem statusFields_reserved : (statusFields ph n e l).getLsbD 3 = false := by
  rw [getLsbD_statusFields]
  simp

theorem statusFields_needed : (statusFields ph n e l).extractLsb' 4 4 = n := by
  apply BitVec.eq_of_getLsbD_eq
  intro i hi
  rw [BitVec.getLsbD_extractLsb', getLsbD_statusFields]
  have h1 : ¬ 4 + i < 3 := by omega
  have h2 : 4 + i < 8 := by omega
  simp [hi, h1, h2]

theorem statusFields_err : (statusFields ph n e l).extractLsb' 8 4 = e := by
  apply BitVec.eq_of_getLsbD_eq
  intro i hi
  rw [BitVec.getLsbD_extractLsb', getLsbD_statusFields]
  have h1 : ¬ 8 + i < 3 := by omega
  have h2 : ¬ 8 + i < 4 := by omega
  have h3 : 8 + i < 12 := by omega
  simp [hi, h1, h2, h3]

theorem statusFields_candLen : (statusFields ph n e l).extractLsb' 12 4 = l := by
  apply BitVec.eq_of_getLsbD_eq
  intro i hi
  rw [BitVec.getLsbD_extractLsb', getLsbD_statusFields]
  have h1 : ¬ 12 + i < 3 := by omega
  have h2 : ¬ 12 + i < 4 := by omega
  have h3 : ¬ 12 + i < 8 := by omega
  simp [hi, h1, h2, h3]

end Sys2Proof.Machine
end

