-- ==== Sys2Proof/Laws/PerInstr.lean ====
section
/-!
SUPPORT. One lemma for each operation: the decoder reads back what the encoder wrote.
-/

namespace Sys2Proof.Laws.RoundTrip

open Sys2Proof Machine

/-- Decoding the request (or packet) of a well-formed operation, whatever follows it, gives the
operation back and leaves what follows. -/
def Statement (i : Instr) : Prop :=
  ∀ (cfg : Config) (rest : List Item), i.wellFormed cfg = true → fetch (encode i ++ rest) = .instr i rest

theorem start : Statement .start := fun _ rest _ => fetch_bare rest (fun _ => rfl) rfl rfl

theorem chunk (c : List Byte) : Statement (.chunk c) := by
  intro cfg rest h
  simp only [Instr.wellFormed, Bool.and_eq_true, decide_eq_true_eq] at h
  exact fetch_bytes rest (by simp [opTakesArg]) rfl
    (by simp only [BitVec.toNat_ofNat]; omega) rfl

theorem eof : Statement .eof := fun _ rest _ => fetch_bare rest (fun _ => rfl) rfl rfl

theorem rderr (cause : Cause) : Statement (.rderr cause) := fun _ rest _ => fetch_cause cause rest

theorem cancel : Statement .cancel := fun _ rest _ => fetch_bare rest (fun _ => rfl) rfl rfl

theorem rdstat : Statement .rdstat := fun _ rest _ => fetch_bare rest (fun _ => rfl) rfl rfl

theorem rdout : Statement .rdout := fun _ rest _ => fetch_bare rest (fun _ => rfl) rfl rfl

theorem cksum (b : Seven) : Statement (.cksum b) := fun _ rest _ =>
  fetch_bytes rest (fun _ => rfl) rfl (by simp) (by simp [bytesInstr, exactly?_toList])

theorem ckval (p : Packet) : Statement (.ckval p) := fun _ rest _ =>
  fetch_bytes rest (fun _ => rfl) rfl (by simp) (by simp [bytesInstr, exactly?_toList])

theorem hdrchk (k : Byte) (p : Packet) : Statement (.hdrchk k p) := fun _ rest _ =>
  fetch_bytes rest (by simp [opTakesArg]) rfl (by simp) (by simp [bytesInstr, exactly?_toList])

theorem check (k : Byte) : Statement (.check k) := fun _ rest _ =>
  fetch_bare rest (by simp [opTakesArg]) rfl rfl

theorem gencmd (k : Byte) : Statement (.gencmd k) := fun _ rest _ =>
  fetch_bare rest (by simp [opTakesArg]) rfl rfl

theorem readCo2 : Statement .readCo2 := fun _ rest _ => fetch_packet rest (by decide)

theorem readRawCo2 : Statement .readRawCo2 := fun _ rest _ => fetch_packet rest (by decide)

/-- A response packet is no command packet, and keeps its tail (R73). -/
theorem decodePacket_responsePacket (kind : Kind) (t : Seven) :
    decodePacket (responsePacket kind t) =
      some (match kind with | .final => .rspFinal t | .raw => .rspRaw t) := by
  have hc : ∀ q : Packet, q[1] = 0x01 → responsePacket kind t ≠ q := by
    rintro q hq rfl
    have h1 : kindCode kind = 0x01 := hq
    revert h1
    cases kind <;> decide
  have ht : (#v[t[0], t[1], t[2], t[3], t[4], t[5], t[6]] : Seven) = t := by
    ext i hi
    interval_cases i <;> rfl
  rw [decodePacket, if_neg (hc _ rfl), if_neg (hc _ rfl)]
  cases kind <;> simp [responsePacket, kindCode, ht]

theorem rspFinal (tail : Seven) : Statement (.rspFinal tail) := fun _ rest _ =>
  fetch_packet rest (decodePacket_responsePacket .final tail)

theorem rspRaw (tail : Seven) : Statement (.rspRaw tail) := fun _ rest _ =>
  fetch_packet rest (decodePacket_responsePacket .raw tail)

end Sys2Proof.Laws.RoundTrip
end

