-- ==== Sys2Proof/Tests/Slice0.lean ====
section
/-!
SUPPORT. The model's own tests. Expected results come from spec/: the worked vectors of
95_test_vectors.md (named in each comment), and words written out from 30_encoding.md. The witnesses
show, for each statement with hypotheses, a state and operands that meet them all.
-/

namespace Sys2Proof.Tests

open Sys2Proof Sys2Proof.Machine

/-! States the tests start from -/

/-- Status 0x0091. -/
def huntState : State := { State.reset with phase := .hunt }

/-- ACCUM with these bytes. -/
def accumState (cand : List Byte) : State :=
  { State.reset with phase := .accum, cand := cand, needed := payloadSize - cand.length }

/-- COMPLETE with this packet. -/
def completeState (p : Packet) : State := { State.reset with phase := .complete, out := some p }

/-- FAILED with ReadingEOF. -/
def failedState : State := { State.reset with phase := .failed, err := some ⟨.readingEOF, none⟩ }

/-- The packet P of 95_test_vectors.md. -/
def packetP : Packet := #v[0xFF, 0x86, 0x01, 0x00, 0x00, 0x00, 0x00, 0x00, 0x79]

/-- The bytes 2 to 8 of P. -/
def tailP : Seven := #v[0x01, 0x00, 0x00, 0x00, 0x00, 0x00, 0x79]

/-- The packet Q of 95_test_vectors.md, with a marker at byte 3. -/
def packetQ : Packet := #v[0xFF, 0x86, 0x01, 0xFF, 0x00, 0x00, 0x00, 0x00, 0x7A]

/-- The bytes 2 to 8 of Q. -/
def tailQ : Seven := #v[0x01, 0xFF, 0x00, 0x00, 0x00, 0x00, 0x7A]

/-- A state with this presented. -/
def presenting (items : List Item) (s : State) : State := { s with inbox := items }

/-- The response and the status word after an operation. -/
def reply (r : Result) : Option (Option Response × Option Word) :=
  (nextState? r).map fun s => (s.response, statusWord? s)

/-! Well-formedness: an ill-formed term for each check -/

theorem test_chunk_empty_ill_formed : Instr.wellFormed {} (.chunk []) = false := by decide

theorem test_chunk_46_ill_formed : Instr.wellFormed {} (.chunk (List.replicate 46 0)) = false := by
  decide

theorem test_chunk_256_ill_formed :
    Instr.wellFormed { scratchSize := 300 } (.chunk (List.replicate 256 0)) = false := by
  simp only [Instr.wellFormed, List.length_replicate]
  decide

theorem test_chunk_45_well_formed : Instr.wellFormed {} (.chunk (List.replicate 45 0)) = true := by
  decide

theorem test_hdrchk_kind_ill_formed : Instr.wellFormed {} (.hdrchk 0x84 packetP) = false := by decide

theorem test_check_kind_ill_formed : Instr.wellFormed {} (.check 0x00) = false := by decide

theorem test_gencmd_kind_ill_formed : Instr.wellFormed {} (.gencmd 0x87) = false := by decide

theorem test_rspFinal_checksum_ill_formed :
    Instr.wellFormed {} (.rspFinal #v[0x01, 0x00, 0x00, 0x00, 0x00, 0x00, 0x78]) = false := by decide

theorem test_rspRaw_checksum_ill_formed : Instr.wellFormed {} (.rspRaw tailP) = false := by decide

theorem test_window_0_ill_formed : Config.wellFormed { rescan := .trailing 0 } = false := by decide

theorem test_window_46_ill_formed : Config.wellFormed { rescan := .trailing 46 } = false := by decide

/-! Decoding: a word for each operation, written out from R80 (`OP` bits 7:0, `ARG` bits 15:8) and R82 -/

theorem test_decode_start : fetch [.word 0b0000000000000001] = .instr .start [] := by decide

theorem test_decode_chunk :
    fetch [.word 0b0000001000000010, .byte 0x12, .byte 0x34, .byte 0x56] =
      .instr (.chunk [0x12, 0x34]) [.byte 0x56] := by decide

theorem test_decode_eof : fetch [.word 0b0000000000000011] = .instr .eof [] := by decide

theorem test_decode_rderr (c : Cause) :
    fetch [.word 0b0000000000000100, .cause c] = .instr (.rderr c) [] := rfl

theorem test_decode_cancel : fetch [.word 0b0000000000000101] = .instr .cancel [] := by decide

theorem test_decode_rdstat : fetch [.word 0b0000000000000110] = .instr .rdstat [] := by decide

theorem test_decode_rdout : fetch [.word 0b0000000000000111] = .instr .rdout [] := by decide

theorem test_decode_cksum :
    fetch (.word 0b0000000000010000 :: [0x01, 0x86, 0x00, 0x00, 0x00, 0x00, 0x05].map .byte) =
      .instr (.cksum #v[0x01, 0x86, 0x00, 0x00, 0x00, 0x00, 0x05]) [] := by decide

theorem test_decode_ckval :
    fetch (.word 0b0000000000010001 :: packetP.toList.map .byte) = .instr (.ckval packetP) [] := by
  decide

theorem test_decode_hdrchk :
    fetch (.word 0b1000010100010010 :: packetP.toList.map .byte) = .instr (.hdrchk 0x85 packetP) [] := by
  decide

theorem test_decode_check : fetch [.word 0b1000011000010011] = .instr (.check 0x86) [] := by decide

theorem test_decode_gencmd : fetch [.word 0b1000010100100000] = .instr (.gencmd 0x85) [] := by decide

theorem test_decode_readCo2 : decodeTableWord 72 0xFF0186000000000079 = some .readCo2 := by decide

theorem test_decode_readRawCo2 : decodeTableWord 72 0xFF018500000000007A = some .readRawCo2 := by decide

theorem test_decode_rspFinal :
    decodeTableWord 72 0xFF860102030405060B =
      some (.rspFinal #v[0x01, 0x02, 0x03, 0x04, 0x05, 0x06, 0x0B]) := by decide

theorem test_decode_rspRaw :
    decodeTableWord 72 0xFF850102030405060B =
      some (.rspRaw #v[0x01, 0x02, 0x03, 0x04, 0x05, 0x06, 0x0B]) := by decide

/-- PacketRowsByMask: a packet of each response row, with its seven bytes, and one of no row. -/
theorem witness_PacketRowsByMask :
    decodePacket packetP = some (.rspFinal tailP) ∧ responsePacket .final tailP = packetP ∧
    decodePacket (packetP.set 1 0x85) = some (.rspRaw tailP) ∧
      responsePacket .raw tailP = packetP.set 1 0x85 ∧
    decodePacket (packetP.set 1 0x87) = none := by decide

/-- R77: a packet of no row, come whole in one read, is still a chunk. -/
theorem test_decode_other_packet :
    decodeTableWord 72 0xFF8701000000000078 =
      some (.chunk [0xFF, 0x87, 0x01, 0x00, 0x00, 0x00, 0x00, 0x00, 0x78]) := by decide

/-- Section 2.6: the reserved code 0x0008, and START with ARG 1. -/
theorem test_decode_rejects :
    fetch [.word 0x0008] = .rejected .badOpcode ∧ fetch [.word 0x0101] = .rejected .badArg := by decide

/-! One step each, against the vectors of 95_test_vectors.md -/

/-- Section 2.5: reset, START: OK, 0x0091, through the host's own entry. -/
theorem test_start :
    reply (Sys2Proof.core.step (State.reset.withFetchWord 16 0x0001)) =
      some (some .ok, some 0x0091) := by decide

/-- Section 2.5: COMPLETE, START: OK, `out` dropped. -/
theorem test_start_drops_out :
    (nextState? (exec .start (completeState packetP))).map (·.out) = some none := by decide

/-- V13, second chunk: Equal with a marker body glued to an old candidate. -/
theorem test_chunk_v13 :
    reply (exec (.chunk [0x12, 0x34, 0xFF, 0x00, 0x00, 0x00, 0x79])
      (accumState [0xFF, 0x86, 0x01, 0x00])) =
      some (some (.done #v[0xFF, 0x86, 0x01, 0x00, 0xFF, 0x00, 0x00, 0x00, 0x79]), some 0x0093) := by
  decide

/-- V20, second chunk: two passes, the second Greater. -/
theorem test_chunk_v20 :
    reply (exec (.chunk [0xFF, 0x86, 0x01, 0x00, 0x00, 0x00, 0x00, 0x00, 0x79, 0x00])
      (accumState [0xFF, 0x86, 0x01])) = some (some .wait, some 0x0091) := by decide

/-- V4: EOF in ACCUM: ERROR(5), 0x0594. -/
theorem test_eof :
    reply (exec .eof (accumState [0xFF, 0x86, 0x01, 0x00])) =
      some (some (.error .readingEOF none), some 0x0594) := by decide

/-- Section 2.5: RDERR c in ACCUM: ERROR(6, c), 0x0694. -/
theorem test_rderr :
    reply (exec (.rderr .first) (accumState [0xFF, 0x86, 0x01, 0x00])) =
      some (some (.error .reading (some .first)), some 0x0694) := by decide

/-- Section 2.5: ACCUM, CANCEL: OK, 0x0090. -/
theorem test_cancel :
    reply (exec .cancel (accumState [0xFF, 0x86])) = some (some .ok, some 0x0090) := by decide

/-- Section 2.5: RDSTAT in ACCUM after [FF 86 01 00]: 0x4052. -/
theorem test_rdstat :
    reply (exec .rdstat (accumState [0xFF, 0x86, 0x01, 0x00])) =
      some (some (.value (.status 0x4052)), some 0x4052) := by decide

/-- Section 2.7: one byte short: needed 1, status 0x8012. -/
theorem test_rdstat_one_needed :
    reply (exec .rdstat (accumState [0xFF, 0x86, 0x01, 0x00, 0x00, 0x00, 0x00, 0x00])) =
      some (some (.value (.status 0x8012)), some 0x8012) := by decide

/-- Section 2.5: RDOUT in COMPLETE. -/
theorem test_rdout :
    reply (exec .rdout (completeState packetP)) =
      some (some (.value (.packet packetP)), some 0x0093) := by decide

/-- Section 2.5: RDOUT in FAILED: REFUSED(BadPhase). -/
theorem test_rdout_failed :
    responseOf (exec .rdout failedState) = some (.refused .badPhase) := by decide

/-- Section 2.1: sum 0x348. -/
theorem test_cksum :
    reply (exec (.cksum #v[0x12, 0x34, 0x56, 0x78, 0x9A, 0xBC, 0xDE]) State.reset) =
      some (some (.value (.byte 0xB8)), some 0x0090) := by decide

/-- Section 2.1: sum 0, the wrap. -/
theorem test_cksum_zero :
    reply (exec (.cksum #v[0x00, 0x00, 0x00, 0x00, 0x00, 0x00, 0x00]) failedState) =
      some (some (.value (.byte 0x00)), some 0x0594) := by decide

/-- Section 2.2 row b: CKVAL = 0. -/
theorem test_ckval_bad :
    reply (exec (.ckval #v[0xFF, 0x86, 0x01, 0x00, 0x00, 0x00, 0x00, 0x00, 0x78]) State.reset) =
      some (some (.value (.byte 0)), some 0x0090) := by decide

/-- Section 2.2 row f: byte 0 is not covered. -/
theorem test_ckval_ignores_byte_0 :
    reply (exec (.ckval #v[0x00, 0x86, 0x01, 0x00, 0x00, 0x00, 0x00, 0x00, 0x79]) State.reset) =
      some (some (.value (.byte 1)), some 0x0090) := by decide

/-- Section 2.2 row d: a FINAL packet checked as RAW. -/
theorem test_hdrchk_other_kind :
    reply (exec (.hdrchk 0x85 packetP) State.reset) = some (some (.value (.byte 0)), some 0x0090) := by
  decide

/-- Section 2.2: HDRCHK with 0x84. -/
theorem test_hdrchk_bad_kind :
    responseOf (exec (.hdrchk 0x84 packetP) State.reset) = some (.refused .badKind) := by decide

/-- Section 2.2 row h: both checks fail, the checksum is reported. -/
theorem test_check_precedence :
    reply (exec (.check 0x86)
      (completeState #v[0xFF, 0x87, 0x01, 0x00, 0x00, 0x00, 0x00, 0x00, 0x79])) =
      some (some (.error .invalidChecksum none), some 0x0194) := by decide

/-- Section 2.6: CHECK with kind 0: the kind is checked before the phase. -/
theorem test_check_kind_before_phase :
    responseOf (exec (.check 0x00) huntState) = some (.refused .badKind) := by decide

/-- Section 2.3: GENCMD 0x85. -/
theorem test_gencmd_raw :
    reply (exec (.gencmd 0x85) State.reset) =
      some (some (.value (.packet #v[0xFF, 0x01, 0x85, 0x00, 0x00, 0x00, 0x00, 0x00, 0x7A])),
        some 0x0090) := by decide

/-- Section 2.3: GENCMD 0x86 in FAILED. -/
theorem test_gencmd_failed :
    reply (exec (.gencmd 0x86) failedState) =
      some (some (.value (.packet #v[0xFF, 0x01, 0x86, 0x00, 0x00, 0x00, 0x00, 0x00, 0x79])),
        some 0x0594) := by decide

/-- Section 2.2 row g: READ_CO2 echoed frames whole. -/
theorem test_readCo2 :
    reply (step ((presenting [] huntState).withFetchWord 72 0xFF0186000000000079)) =
      some (some (.done readCo2Packet), some 0x0093) := by decide

/-- R132: outside HUNT and ACCUM a packet is refused, as any chunk is. -/
theorem test_readRawCo2_idle :
    responseOf (exec .readRawCo2 State.reset) = some (.refused .badPhase) := by decide

/-- V7, second chunk: discard, rescan, restart: DONE(P); with TRAILING(4) P is lost. -/
theorem test_rspFinal_v7 :
    reply (exec (.rspFinal tailP) (accumState [0xFF, 0x86, 0x02])) =
      some (some (.done packetP), some 0x0093) ∧
    reply (exec (.rspFinal tailP) ((accumState [0xFF, 0x86, 0x02]).withRescan (.trailing 4))) =
      some (some .wait, some 0x0091) := by decide

/-- V10, first chunk: Q, a marker inside the payload. -/
theorem test_rspFinal_v10 :
    (nextState? (exec (.rspFinal tailQ) huntState)).map (fun s => (s.cand, statusWord? s)) =
      some ([0xFF, 0x00, 0x00, 0x00, 0x00, 0x7A], some 0x6032) := by decide

/-- Section 2.2 row e: a RAW response. -/
theorem test_rspRaw :
    reply (exec (.rspRaw #v[0x01, 0x00, 0x00, 0x00, 0x00, 0x00, 0x7A]) huntState) =
      some (some (.done #v[0xFF, 0x85, 0x01, 0x00, 0x00, 0x00, 0x00, 0x00, 0x7A]), some 0x0093) := by
  decide

/-- V11 and V12, second chunk: without and with the marker reset. -/
theorem test_marker_reset :
    reply (exec (.chunk [0x00, 0x00, 0x00, 0x00, 0x79, 0xFF, 0x86])
      (accumState [0xFF, 0x86, 0x01, 0x00])) = some (some .wait, some 0x6032) ∧
    reply (exec (.chunk [0x00, 0x00, 0x00, 0x00, 0x79, 0xFF, 0x86])
      { accumState [0xFF, 0x86, 0x01, 0x00] with cfg := { markerReset := true } }) =
      some (some .wait, some 0x2072) := by decide

/-- R87: the response codes. -/
theorem test_response_codes :
    [Response.wait, .done packetP, .ok, .value (.byte 0), .error .reading none,
      .refused .badOpcode].map responseCode = [0x00, 0x01, 0x02, 0x03, 0x86, 0xFF] := by decide

/-- E10: the CO2 field of P is consistent with the big-endian bytes 2 and 3. -/
theorem test_field16 : field16 packetP 2 = 256 := by decide

/-- The packet an exchange hands over, or the state a host-side error leaves. -/
def endOf : TransactionEnd → Option Packet × Option Phase
  | .handed p _ => (some p, none)
  | .failed _ _ s => (none, some s.phase)
  | .pending _ => (none, none)
  | .stopped _ => (none, none)

/-- Program A, steps 3 to 5 as one exchange of two reads. -/
theorem test_transaction :
    endOf (transaction .commandFirst .final none none
        [.bytes [0x00, 0x12, 0xFF, 0x86, 0x01], .bytes [0x00, 0x00, 0x00, 0x00, 0x00, 0x79]]
        State.reset).2 = (some packetP, none) := by decide

/-- R171, R173: a failed write leaves the block in IDLE, or, where START came first, in HUNT. -/
theorem test_transaction_write_error :
    endOf (transaction .commandFirst .final (some .first) none [] State.reset).2 =
      (none, some .idle) ∧
    endOf (transaction .startFirst .final (some .first) none [] State.reset).2 =
      (none, some .hunt) := by decide

/-! Witnesses: states that keep the invariant, one for each phase and each end of its range -/

theorem reset_inv : State.reset.Inv := by
  refine ⟨?_, ?_, ?_, ?_, ?_, ?_, ?_, ?_, ?_, rfl⟩ <;>
    simp [State.reset, framingPhase, payloadSize]

theorem hunt_inv : huntState.Inv := by
  refine ⟨?_, ?_, ?_, ?_, ?_, ?_, ?_, ?_, ?_, rfl⟩ <;>
    simp [huntState, State.reset, framingPhase, payloadSize]

theorem accum_inv {cand : List Byte} (h0 : cand.head? = some marker) (hl : cand.length < 9) :
    (accumState cand).Inv := by
  have : cand ≠ [] := by rintro rfl; simp at h0
  refine ⟨?_, ?_, ?_, ?_, ?_, ?_, ?_, ?_, ?_, rfl⟩ <;>
    simp [accumState, State.reset, framingPhase, payloadSize, this, h0] <;> omega

theorem complete_inv : (completeState packetP).Inv := by
  refine ⟨?_, ?_, ?_, ?_, ?_, ?_, fun p h => by cases h; rfl, ?_, ?_, rfl⟩ <;>
    simp [completeState, State.reset, framingPhase, payloadSize]

theorem failed_inv : failedState.Inv := by
  refine ⟨?_, ?_, ?_, ?_, ?_, ?_, ?_, ?_, ?_, rfl⟩ <;>
    simp [failedState, State.reset, framingPhase, payloadSize]

/-! Witnesses: each statement's hypotheses, met together -/

/-- DecodeOfEncode, at the longest and the shortest chunk. -/
theorem witness_DecodeOfEncode :
    Instr.wellFormed {} (.chunk (List.replicate 45 0xFF)) = true ∧
    Instr.wellFormed {} (.chunk [0xFF]) = true ∧ Instr.wellFormed {} (.rspFinal tailP) = true := by
  decide

/-- EncodeOfDecode, PayloadDecidedByWord: a request of each payload shape. -/
theorem witness_PayloadDecidedByWord :
    fetch (.word 0x2D02 :: (List.replicate 45 0).map .byte) =
      .instr (.chunk (List.replicate 45 0)) [] ∧
    fetch [.word 0x0004, .cause .first] = .instr (.rderr .first) [] ∧
    fetch (.word 0x0010 :: tailP.toList.map .byte) = .instr (.cksum tailP) [] ∧
    fetch (.word 0x0011 :: packetP.toList.map .byte) = .instr (.ckval packetP) [] ∧
    fetch (.word 0x8612 :: packetP.toList.map .byte) = .instr (.hdrchk 0x86 packetP) [] ∧
    fetch [.word 0x8613, .word 0x0001] = .instr (.check 0x86) [.word 0x0001] := by decide

/-- ReservedOpcodesRefused: the ends of each reserved range, and the codes next to them. -/
theorem witness_ReservedOpcodesRefused :
    ([0x00, 0x08, 0x0F, 0x14, 0x1F, 0x21, 0xFF] : List Word).map
      (fun w => responseOf (step (presenting [.word w] State.reset))) =
      List.replicate 7 (some (.refused .badOpcode)) ∧
    ([0x01, 0x07, 0x10, 0x13, 0x20] : List Word).map
      (fun w => responseOf (step (presenting [.word w] State.reset))) =
      [some .ok, some (.refused .badPhase), none, some (.refused .badKind),
        some (.refused .badKind)] := by decide

/-- ArgumentsRefused: each clause. -/
theorem witness_ArgumentsRefused :
    responseOf (step (presenting [.word 0x0111] huntState)) = some (.refused .badArg) ∧
    responseOf (step (presenting [.word (requestWord .chunk 0)] State.reset)) =
      some (.refused .badLength) ∧
    responseOf (step (presenting
      (.word (requestWord .chunk 46) :: (List.replicate 46 0).map .byte) huntState)) =
      some (.refused .badLength) ∧
    responseOf (step (presenting
      (.word (requestWord .hdrchk 0x84) :: packetP.toList.map .byte) huntState)) =
      some (.refused .badKind) ∧
    responseOf (step (presenting [.word (requestWord .check 0x87)] huntState)) =
      some (.refused .badKind) ∧
    responseOf (step (presenting [.word (requestWord .gencmd 0x01)] huntState)) =
      some (.refused .badKind) := by decide

/-- WrongPhaseRefused: at the defaults, with a legal and an illegal phase of one operation. -/
theorem witness_WrongPhaseRefused :
    payloadSize ≤ State.reset.cfg.scratchSize ∧
    Instr.wellFormed State.reset.cfg (.chunk [0]) = true ∧
    legalPhase (.chunk [0]) .hunt = true ∧ legalPhase (.chunk [0]) .idle = false := by decide

/-- ReadResultsBecomeRequests, StepRunsRequest: a read of each sort. -/
theorem witness_ReadResultsBecomeRequests :
    fetch [.read (.bytes [0xFF]), .reset] = .instr (.chunk [0xFF]) [.reset] ∧
    fetch [.read (.bytes packetP.toList)] = .instr (.rspFinal tailP) [] ∧
    fetch [.read (.bytes [])] = .instr .eof [] ∧
    fetch [.read (.error .first)] = .instr (.rderr .first) [] := by decide

/-- NoStepWithoutInput: each clause, with a payload one byte short for each operation that takes bytes. -/
theorem witness_NoStepWithoutInput :
    State.reset.inbox = [] ∧
    (decodeWord 0x0202 = .ok (.chunk, 2) ∧ payloadShape .chunk 2 = .bytes 2 ∧
      ([0] : List Byte).length < 2) ∧
    (decodeWord 0x0010 = .ok (.cksum, 0) ∧ payloadShape .cksum 0 = .bytes 7 ∧
      (List.replicate 6 (0 : Byte)).length < 7) ∧
    (decodeWord 0x0011 = .ok (.ckval, 0) ∧ payloadShape .ckval 0 = .bytes 9) ∧
    (decodeWord 0x8612 = .ok (.hdrchk, 0x86) ∧ payloadShape .hdrchk 0x86 = .bytes 9 ∧
      (List.replicate 8 (0 : Byte)).length < 9) ∧
    (decodeWord 0x0004 = .ok (.rderr, 0) ∧ payloadShape .rderr 0 = .cause) ∧
    (nextState? (step (presenting [.word 0x0001, .reset] State.reset))).map (·.inbox) =
      some [.reset] := by decide

/-- ResetInputDropsRequest, ResetLeavesWhatCancelLeaves: a reset alone, in a payload, before a cause. -/
theorem witness_ResetInputDropsRequest :
    decodeWord 0x0010 = .ok (.cksum, 0) ∧ payloadShape .cksum 0 = .bytes 7 ∧
    (nextState? (step (presenting [.reset] (accumState [0xFF])))).map (·.framing) =
      some State.reset.framing ∧
    (nextState? (step (presenting [.word 0x0010, .byte 1, .reset] (completeState packetP)))).map
      (·.framing) = some State.reset.framing ∧
    (nextState? (step (presenting [.word 0x0004, .reset] failedState))).map (·.framing) =
      some State.reset.framing := by decide

/-- StartResult, StartCarriesNothingOver, EofResult, RderrResult, RdoutResult, CheckResult: a state of
each phase. -/
theorem witness_phases :
    State.reset.phase = .idle ∧ huntState.phase = .hunt ∧ (accumState [0xFF]).phase = .accum ∧
    (completeState packetP).phase = .complete ∧ (completeState packetP).out = some packetP ∧
    failedState.phase = .failed ∧ legalPhase .start (completeState packetP).phase = true ∧
    State.reset.cfg = (completeState packetP).cfg ∧ State.reset.rom = (completeState packetP).rom ∧
    State.reset.inbox = (completeState packetP).inbox := by decide

/-- RdstatResult: the invariant, with a code to report. -/
theorem witness_RdstatResult : failedState.Inv ∧ (accumState [0xFF]).Inv :=
  ⟨failed_inv, accum_inv rfl (by decide)⟩

/-- ChunkTurnedAway: each clause. -/
theorem witness_ChunkTurnedAway :
    1 ≤ ([0] : List Byte).length ∧ ([0] : List Byte).length ≤ State.reset.cfg.scratchSize ∧
    State.reset.phase = .idle ∧ State.reset.cfg.scratchSize < (List.replicate 46 (0 : Byte)).length := by
  decide

/-- UnmarkedChunkIgnored. -/
theorem witness_UnmarkedChunkIgnored :
    ChunkAccepted huntState [0x12, 0x34, 0x56] ∧ marker ∉ ([0x12, 0x34, 0x56] : List Byte) ∧
      huntState.cand = [] := by
  refine ⟨⟨rfl, ?_, ?_⟩, ?_, rfl⟩ <;> decide

/-- The body of a packet at its own marker. -/
theorem packetP_body : BodyAtMarker packetP.toList packetP.toList :=
  ⟨[], packetP.toList.tail, rfl, by decide, rfl⟩

/-- EqualBodyCompletes: a marked body from HUNT (needed 9), an unmarked one from ACCUM (needed 1). -/
theorem witness_EqualBodyCompletes :
    (huntState.Inv ∧ ChunkAccepted huntState packetP.toList ∧
      FirstComparison huntState packetP.toList [] packetP.toList ∧
      packetP.toList.length = payloadSize - ([] : List Byte).length) ∧
    ((accumState (0xFF :: List.replicate 7 0)).Inv ∧
      ChunkAccepted (accumState (0xFF :: List.replicate 7 0)) [0x00] ∧
      FirstComparison (accumState (0xFF :: List.replicate 7 0)) [0x00]
        (0xFF :: List.replicate 7 0) [0x00] ∧
      ([0x00] : List Byte).length = payloadSize - (0xFF :: List.replicate 7 (0 : Byte)).length) :=
  ⟨⟨hunt_inv, ⟨rfl, by decide, by decide⟩, .inr ⟨packetP_body, rfl⟩, by decide⟩,
    ⟨accum_inv rfl (by decide), ⟨rfl, by decide, by decide⟩,
      .inl ⟨by decide, by decide, rfl, rfl⟩, by decide⟩⟩

/-- ShorterBodyAccumulates: eight bytes from HUNT. -/
theorem witness_ShorterBodyAccumulates :
    huntState.Inv ∧ ChunkAccepted huntState (0xFF :: List.replicate 7 0) ∧
      FirstComparison huntState (0xFF :: List.replicate 7 0) [] (0xFF :: List.replicate 7 0) ∧
      (0xFF :: List.replicate 7 (0 : Byte)).length < payloadSize - ([] : List Byte).length :=
  ⟨hunt_inv, ⟨rfl, by decide, by decide⟩,
    .inr ⟨⟨[], List.replicate 7 0, rfl, by decide, rfl⟩, rfl⟩, by decide⟩

/-- ChunkClosedForm, ChunkCompletesWithFrame: each clause's form of chunk and candidate (the
boundaries of the clauses follow below). -/
theorem witness_ChunkClosedForm :
    (huntState.Inv ∧ ChunkAccepted huntState [0x00] ∧ marker ∉ ([0x00] : List Byte)) ∧
    ((accumState [0xFF]).Inv ∧ ChunkAccepted (accumState [0xFF]) (List.replicate 45 0) ∧
      marker ∉ List.replicate 45 (0 : Byte) ∧ (accumState [0xFF]).cand ≠ []) ∧
    (ChunkAccepted (accumState [0xFF]) packetP.toList ∧
      BodyAtMarker packetP.toList packetP.toList ∧ (accumState [0xFF]).cfg.markerReset = false) :=
  ⟨⟨hunt_inv, ⟨rfl, by decide, by decide⟩, by decide⟩,
    ⟨accum_inv rfl (by decide), ⟨rfl, by decide, by decide⟩, by decide, by decide⟩,
    ⟨⟨rfl, by decide, by decide⟩, packetP_body, rfl⟩⟩

/-- A body of `n + 1` bytes at its marker. -/
def zerosBody (n : Nat) : List Byte := 0xFF :: List.replicate n 0

theorem zerosBody_body (n : Nat) : BodyAtMarker (zerosBody n) (zerosBody n) :=
  ⟨[], List.replicate n 0, rfl, by simp [marker, List.mem_replicate], rfl⟩

theorem zerosBody_accepted {s : State} {n : Nat} (hf : framingPhase s.phase = true)
    (hn : n + 1 ≤ s.cfg.scratchSize) : ChunkAccepted s (zerosBody n) :=
  ⟨hf, by simp [zerosBody], by simpa [zerosBody] using hn⟩

theorem inv_withConfig {s : State} (cfg : Config) (h : s.Inv) : State.Inv { s with cfg := cfg } :=
  ⟨h.count, h.hunt_iff, h.head_marker, h.at_rest, h.needed_range, h.out_iff, h.out_marker, h.err_iff,
    h.err_code, h.rom_contents⟩

/-- ChunkClosedForm, the clauses with a marker, for either P_MARKER_RESET: with a candidate of one byte
(`needed` 8), bodies of 7 bytes (shorter), 8 (equal; with the reset shorter), 9 (greater, restarted;
with the reset equal) and 10 (greater, everything discarded). -/
theorem witness_ChunkClosedForm_marked : ∀ markerReset : Bool, ∀ n ∈ [6, 7, 8, 9],
    State.Inv { accumState [0xFF] with cfg := { markerReset := markerReset } } ∧
    ChunkAccepted { accumState [0xFF] with cfg := { markerReset := markerReset } } (zerosBody n) ∧
    BodyAtMarker (zerosBody n) (zerosBody n) ∧ (zerosBody n).length = n + 1 :=
  fun _ n hn => ⟨inv_withConfig _ (accum_inv rfl (by decide)),
    zerosBody_accepted rfl ((by decide : ∀ n ∈ [6, 7, 8, 9], n + 1 ≤ 45) n hn),
    zerosBody_body n, by simp [zerosBody]⟩

/-- ChunkClosedForm, the restart: a candidate of two bytes (`needed` 7) and a body of 8 restarts and
accumulates; a window of exactly the body's length allows a restart, one byte less does not. -/
theorem witness_ChunkClosedForm_restart :
    ((accumState [0xFF, 0x86]).Inv ∧ ChunkAccepted (accumState [0xFF, 0x86]) (zerosBody 7) ∧
      BodyAtMarker (zerosBody 7) (zerosBody 7)) ∧
    restartAllowed (.trailing 9) 9 = true ∧ restartAllowed (.trailing 8) 9 = false ∧
    restartAllowed (.trailing 8) 8 = true :=
  ⟨⟨accum_inv rfl (by decide), zerosBody_accepted rfl (by decide), zerosBody_body 7⟩, rfl, rfl, rfl⟩

/-- ChunkClosedForm, the clause without a marker and with a candidate of one byte: chunks of 7, 8 and 9
bytes. -/
theorem witness_ChunkClosedForm_unmarked : ∀ n ∈ [7, 8, 9],
    ChunkAccepted (accumState [0xFF]) (List.replicate n 0) ∧ marker ∉ List.replicate n (0 : Byte) ∧
      (accumState [0xFF]).cand ≠ [] := by
  intro n hn
  have h := (by decide : ∀ n ∈ [7, 8, 9], 1 ≤ n ∧ n ≤ 45) n hn
  exact ⟨⟨rfl, by simpa using h.1, by simpa [accumState, State.reset] using h.2⟩,
    by simp [marker, List.mem_replicate], by decide⟩

/-- ChunkLoopRunsAtMostTwice: a body of each sort. -/
theorem witness_ChunkLoopRunsAtMostTwice :
    marker ∉ ([0x00] : List Byte) ∧ BodyAtMarker packetP.toList packetP.toList :=
  ⟨by decide, packetP_body⟩

/-- WideWindowsAreFull, NarrowWindowsDifferExactly: the window of exactly a packet, and V7-T4, where the
outcomes differ. -/
theorem witness_Windows :
    payloadSize ≤ 9 ∧ 4 < payloadSize ∧
    ((accumState [0xFF, 0x86, 0x02]).Inv ∧
      ChunkAccepted (accumState [0xFF, 0x86, 0x02]) packetP.toList ∧
      (accumState [0xFF, 0x86, 0x02]).cfg.markerReset = false ∧
      BodyAtMarker packetP.toList packetP.toList) :=
  ⟨by decide, by decide, accum_inv rfl (by decide), ⟨rfl, by decide, by decide⟩, rfl, packetP_body⟩

/-- LatestPacketWins: V16's length, a chunk of 45 bytes that ends with P. -/
theorem witness_LatestPacketWins :
    (accumState [0xFF]).Inv ∧
      ChunkAccepted (accumState [0xFF]) (List.replicate 36 0xFF ++ packetP.toList) ∧
      wideRescan (accumState [0xFF]).cfg.rescan = true ∧ wideRescan (.trailing 9) = true ∧
      packetP[0] = marker ∧ marker ∉ packetP.toList.tail :=
  ⟨accum_inv rfl (by decide), ⟨rfl, by decide, by decide⟩, rfl, by decide, by decide, by decide⟩

/-- MarkerInsidePacketMisframes: Q. -/
theorem witness_MarkerInsidePacketMisframes :
    huntState.Inv ∧ huntState.phase = .hunt ∧ payloadSize ≤ huntState.cfg.scratchSize ∧
      packetQ.toList = [0xFF, 0x86, 0x01] ++ marker :: [0x00, 0x00, 0x00, 0x00, 0x7A] ∧
      marker ∉ ([0x00, 0x00, 0x00, 0x00, 0x7A] : List Byte) :=
  ⟨hunt_inv, rfl, by decide, by decide, by decide⟩

/-- OneByteChunksFrameAnyPacket: V15, Q with its inner marker. -/
theorem witness_OneByteChunksFrameAnyPacket :
    huntState.Inv ∧ huntState.phase = .hunt ∧ 1 ≤ huntState.cfg.scratchSize ∧
      huntState.cfg.markerReset = false ∧ packetQ[0] = marker :=
  ⟨hunt_inv, rfl, by decide, rfl, by decide⟩

/-- FramerReadsOnlyMarkers: a renaming of every byte but the marker. -/
theorem witness_FramerReadsOnlyMarkers :
    (∀ b : Byte, (if b = marker then marker else 0x00) = marker ↔ b = marker) ∧
      (if (0x86 : Byte) = marker then marker else (0x00 : Byte)) = 0x00 := by decide

/-- SingleByteChangeDetected: P, changed at its last byte and at its first. -/
theorem witness_SingleByteChangeDetected :
    packetValid packetP = true ∧ (8 : Fin 9) ≠ 0 ∧ (0x78 : Byte) ≠ packetP[8] ∧
      (0x00 : Byte) ≠ packetP[0] := by decide

/-- CancelResult: IDLE, with the invariant. HdrchkResult, CheckResult, GencmdResult,
CodecIndependentOfFramer: a kind, a byte that is none, and two framing states over one ROM. -/
theorem witness_Kinds :
    (State.reset.Inv ∧ State.reset.phase = .idle) ∧
    ((0x85 : Byte) = 0x86 ∨ (0x85 : Byte) = 0x85) ∧ ((0x84 : Byte) ≠ 0x86 ∧ (0x84 : Byte) ≠ 0x85) ∧
    failedState.rom = State.reset.rom ∧ failedState.framing ≠ State.reset.framing :=
  ⟨⟨reset_inv, rfl⟩, by decide, by decide, rfl, by decide⟩

/-- ReadOnlyOperationsRepeat: RDOUT, and a passing CHECK. -/
theorem witness_ReadOnlyOperationsRepeat :
    (nextState? (exec .rdout (completeState packetP))).isSome = true ∧
    (nextState? (exec (.check 0x86) (completeState packetP))).map (·.response) = some (some .ok) := by
  decide

/-- PacketRowsComplete, EchoedCommandIsInvalidPacket, ResponsePacketChecked. -/
theorem witness_PacketRows :
    huntState.Inv ∧ framingPhase huntState.phase = true ∧ huntState.phase = .hunt ∧
      payloadSize ≤ huntState.cfg.scratchSize ∧ marker ∉ tailP.toList ∧
      (accumState [0xFF]).Inv ∧ framingPhase (accumState [0xFF]).phase = true :=
  ⟨hunt_inv, rfl, rfl, by decide, by decide, accum_inv rfl (by decide), rfl⟩

/-- FailIsTheOnlyWayIntoFailed, ErrorsRaisedBy: each of the four errors raised from a state that keeps
the invariant. -/
theorem witness_ErrorsRaised :
    (nextState? (exec (.check 0x86)
      (completeState #v[0xFF, 0x86, 0x01, 0x00, 0x00, 0x00, 0x00, 0x00, 0x78]))).map (·.err) =
      some (some ⟨.invalidChecksum, none⟩) ∧
    (nextState? (exec (.check 0x85) (completeState packetP))).map (·.err) =
      some (some ⟨.invalidPacket, none⟩) ∧
    (nextState? (exec .eof huntState)).map (·.err) = some (some ⟨.readingEOF, none⟩) ∧
    (nextState? (exec (.rderr .first) huntState)).map (·.err) =
      some (some ⟨.reading, some .first⟩) := by decide

/-- FailedLeftOnlyByStartOrCancel, ErrorsDoNotNest: FAILED, and an operation of each clause. -/
theorem witness_Failed :
    failedState.phase = .failed ∧
    (nextState? (exec .start failedState)).map (·.phase) = some .hunt ∧
    (nextState? (exec .cancel failedState)).map (·.phase) = some .idle ∧
    (nextState? (exec .rdstat failedState)).map (·.phase) = some .failed ∧
    Instr.wellFormed failedState.cfg (.check 0x85) = true := by decide

/-- PhaseTransitions, RomAndParametersNeverWritten, EveryOperationResponds: an operation that answers a
next state. -/
theorem witness_exec_next : (nextState? (exec .start State.reset)).isSome = true := by decide

/-- StepKeepsInvariant: a step from a state that keeps the invariant. -/
theorem witness_StepKeepsInvariant :
    State.Inv (presenting [.read (.bytes packetP.toList)] huntState) ∧
      (nextState? (step (presenting [.read (.bytes packetP.toList)] huntState))).isSome = true :=
  ⟨⟨hunt_inv.count, hunt_inv.hunt_iff, hunt_inv.head_marker, hunt_inv.at_rest, hunt_inv.needed_range,
    hunt_inv.out_iff, hunt_inv.out_marker, hunt_inv.err_iff, hunt_inv.err_code,
    hunt_inv.rom_contents⟩, by decide⟩

/-- CleanTransactionHandsPacketOver, HostErrorsComeFirst, TransactionOrdersAgree,
TransactionsAreIndependent, GencmdResult. -/
theorem witness_Transaction :
    (completeState packetP).Inv ∧ legalPhase .start (completeState packetP).phase = true ∧
      wideRescan (completeState packetP).cfg.rescan = true ∧
      ([0x00] ++ packetP.toList).length ≤ (completeState packetP).cfg.scratchSize ∧
      marker ∉ packetP.toList.tail ∧ packetValid packetP = true ∧ packetP[1] = kindCode .final ∧
      (completeState packetP).rom = CommandRom.contents :=
  ⟨complete_inv, by decide, by decide, by decide, by decide, by decide, by decide, rfl⟩

end Sys2Proof.Tests
end

/-!
PROOFS. The statements of 00_scope.md: a step runs the decoded request, every operation performed
answers once and without looking at the last answer, and no rule inspects a cause.
-/

namespace Sys2Proof.Machine

/-! ### What is answered -/

section Answers

variable {s t : State}

/-- R14, R87: the state holds a response, and it is not a refusal. -/
def Answered (t : State) : Prop := ∃ r, t.response = some r ∧ ∀ reason, r ≠ .refused reason

theorem answered_of_response {r : Response} (h : t.response = some r)
    (hr : ∀ reason, r ≠ .refused reason) : Answered t := ⟨r, h, hr⟩

theorem ChunkEffect.answered (h : ChunkEffect s t) : Answered t := by
  cases h with
  | ignored _ => exact answered_of_response rfl nofun
  | completed p => exact answered_of_response rfl nofun
  | extended cand needed => exact answered_of_response rfl nofun
  | discarded => exact answered_of_response rfl nofun

theorem consumeChunk_answered {c : List Byte} (h : consumeChunk c s = .next t) : Answered t := by
  obtain ⟨-, -, -, hs⟩ := consumeChunk_next h
  exact (chunkStep_next hs).answered

theorem fail_answered {code : ErrorCode} {cause : Option Cause} (h : fail code cause s = .next t) :
    Answered t := by
  rw [fail_next.1 h]
  exact answered_of_response rfl nofun

theorem checkPacket_answered {kind : Kind} {p : Packet} (h : checkPacket kind p s = .next t) :
    Answered t := by
  rcases checkPacket_next h with ⟨-, hf⟩ | ⟨-, -, hf⟩ | ⟨-, -, rfl⟩
  · exact fail_answered hf
  · exact fail_answered hf
  · exact answered_of_response rfl nofun

/-- Every operation performed leaves its response, and it is no refusal. -/
theorem exec_answered {i : Instr} (h : exec i s = .next t) : Answered t := by
  cases i with
  | start => obtain ⟨-, rfl⟩ := execStart_next h; exact answered_of_response rfl nofun
  | chunk c => exact consumeChunk_answered h
  | eof => exact fail_answered (requirePhase_next.1 h).2
  | rderr c => exact fail_answered (requirePhase_next.1 h).2
  | cancel => rw [execCancel_next h]; exact answered_of_response rfl nofun
  | rdstat => obtain ⟨w, -, rfl⟩ := execRdstat_next h; exact answered_of_response rfl nofun
  | rdout => obtain ⟨-, p, -, rfl⟩ := execRdout_next h; exact answered_of_response rfl nofun
  | cksum b => rw [respond_next.1 h]; exact answered_of_response rfl nofun
  | ckval p => rw [respond_next.1 h]; exact answered_of_response rfl nofun
  | hdrchk k p => obtain ⟨kind, -, rfl⟩ := execHdrchk_next h; exact answered_of_response rfl nofun
  | check k => obtain ⟨kind, p, -, -, -, hc⟩ := execCheck_next h; exact checkPacket_answered hc
  | gencmd k => obtain ⟨kind, -, rfl⟩ := execGencmd_next h; exact answered_of_response rfl nofun
  | readCo2 => exact consumeChunk_answered h
  | readRawCo2 => exact consumeChunk_answered h
  | rspFinal tail => exact consumeChunk_answered h
  | rspRaw tail => exact consumeChunk_answered h

end Answers

/-! ### The last response is not read -/

section LastResponse

variable (s : State) (last : Option Response)

/-- The same state with another last response. -/
def State.withResponse (s : State) : State := { s with response := last }

theorem respond_withResponse (r : Response) : respond r (s.withResponse last) = respond r s := rfl

theorem settle_withResponse (o : Option Compared) : settle (s.withResponse last) o = settle s o := by
  rcases o with _ | (_ | _ | _ | _) <;> rfl

theorem chunkStep_withResponse (c : List Byte) :
    chunkStep c (s.withResponse last) = chunkStep c s := by
  simp only [chunkStep, settle_withResponse, respond_withResponse]
  rfl

theorem consumeChunk_withResponse (c : List Byte) :
    consumeChunk c (s.withResponse last) = consumeChunk c s := by
  rw [consumeChunk, consumeChunk, chunkStep_withResponse]
  rfl

/-- An operation's answer does not depend on the last response: it is overwritten, never read. -/
theorem exec_withResponse (i : Instr) : exec i (s.withResponse last) = exec i s := by
  cases i with
  | start | eof | rderr | cancel | rdstat | rdout | cksum | ckval | hdrchk | check | gencmd => rfl
  | chunk c => exact consumeChunk_withResponse s last c
  | readCo2 | readRawCo2 | rspFinal | rspRaw => exact consumeChunk_withResponse s last _

end LastResponse

end Sys2Proof.Machine

section
open Sys2Proof Sys2Proof.Machine

/-- Settles O10: `step` on a decoded front is its first arm. -/
theorem stepRunsRequest : Obligations.StepRunsRequest := by
  intro s i rest hfetch
  rw [step, hfetch]

/-- Settles O53: by what each operation answers, and by its answer being blind to the last one. -/
theorem everyOperationResponds : Obligations.EveryOperationResponds := by
  intro s t i h
  exact ⟨exec_answered h, fun last => (exec_withResponse s last i).trans h⟩

end

/-!
PROOFS. R10: causes are carried, never inspected. Renaming them commutes with everything the block
computes: what it reads from the interface, what it responds, what it writes.
-/

namespace Sys2Proof

open Machine

variable (f : Cause → Cause)

/-- R10: an item with its cause renamed. -/
def Item.mapCause : Item → Item
  | .cause c => .cause (f c)
  | .read (.error c) => .read (.error (f c))
  | i => i

/-- R10: a collected payload, its value mapped by `g` and the causes that stand after it renamed. -/
def Gathered.mapCause {α : Type} (g : α → α) : Gathered α → Gathered α
  | .got a rest => .got (g a) (rest.map (Item.mapCause f))
  | .resetBy rest => .resetBy (rest.map (Item.mapCause f))
  | .incomplete => .incomplete
  | .malformed => .malformed

/-- R10: what stands at the front of the interface, with causes renamed. -/
def Fetched.mapCause : Fetched → Fetched
  | .instr i rest => .instr (mapCauseInstr f i) (rest.map (Item.mapCause f))
  | .reset rest => .reset (rest.map (Item.mapCause f))
  | .idle => .idle
  | .unfinished => .unfinished
  | .rejected e => .rejected e

/-! ### The interface -/

theorem takeBytes_mapCause (n : Nat) (items : List Item) :
    takeBytes n (items.map (Item.mapCause f)) = (takeBytes n items).mapCause f id := by
  induction n generalizing items with
  | zero => rfl
  | succ n ih =>
    rcases items with _ | ⟨_ | b | _ | (_ | _) | _, items⟩
    case cons.byte =>
      simp only [List.map_cons, Item.mapCause, takeBytes, ih]
      cases takeBytes n items <;> rfl
    all_goals rfl

theorem takeCause_mapCause (items : List Item) :
    takeCause (items.map (Item.mapCause f)) = (takeCause items).mapCause f f := by
  rcases items with _ | ⟨_ | _ | _ | (_ | _) | _, items⟩ <;> rfl

/-- The operations without a payload hold no cause. -/
theorem bareInstr_mapCause (op : Op) (arg : Byte) :
    (bareInstr op arg).map (mapCauseInstr f) = bareInstr op arg := by
  cases op <;> rfl

/-- The operations with a byte payload hold no cause. -/
theorem bytesInstr_mapCause (op : Op) (arg : Byte) (bs : List Byte) :
    (bytesInstr op arg bs).map (mapCauseInstr f) = bytesInstr op arg bs := by
  cases op with
  | cksum => simp only [bytesInstr, Option.map_map]; rfl
  | ckval => simp only [bytesInstr, Option.map_map]; rfl
  | hdrchk => simp only [bytesInstr, Option.map_map]; rfl
  | start | chunk | eof | rderr | cancel | rdstat | rdout | check | gencmd => rfl

/-- The packet rows hold no cause. -/
theorem decodePacket_mapCause (p : Packet) :
    (decodePacket p).map (mapCauseInstr f) = decodePacket p := by
  unfold decodePacket
  split_ifs <;> rfl

/-- A read of some bytes is the packet row they form, if they form one, or else their CHUNK (R172). -/
theorem decodeRead_bytes_cons (b : Byte) (t : List Byte) :
    decodeRead (.bytes (b :: t)) =
      ((exactly? 9 (b :: t)).bind decodePacket).getD (.chunk (b :: t)) := by
  rw [decodeRead]
  cases (exactly? 9 (b :: t)).bind decodePacket <;> rfl

/-- A read that returned bytes holds no cause, whatever request it becomes. -/
theorem decodeRead_bytes_mapCause (c : List Byte) :
    mapCauseInstr f (decodeRead (.bytes c)) = decodeRead (.bytes c) := by
  rcases c with _ | ⟨b, t⟩
  · rfl
  · have hp : ((exactly? 9 (b :: t)).bind decodePacket).map (mapCauseInstr f) =
        (exactly? 9 (b :: t)).bind decodePacket := by
      simp only [Option.map_bind, Function.comp_def, decodePacket_mapCause]
    rw [decodeRead_bytes_cons, ← Option.getD_map (mapCauseInstr f), hp]
    rfl

theorem ofInstr?_mapCause {i : Option Instr} (hi : i.map (mapCauseInstr f) = i) (rest : List Item) :
    Fetched.ofInstr? i (rest.map (Item.mapCause f)) = (Fetched.ofInstr? i rest).mapCause f := by
  rcases i with _ | i
  · rfl
  · rw [Fetched.ofInstr?, Fetched.ofInstr?, Fetched.mapCause, Option.some.inj hi]

theorem decodeRequest_mapCause (op : Op) (arg : Byte) (rest : List Item) :
    decodeRequest op arg (rest.map (Item.mapCause f)) = (decodeRequest op arg rest).mapCause f := by
  unfold decodeRequest
  cases payloadShape op arg with
  | none => exact ofInstr?_mapCause f (bareInstr_mapCause f op arg) rest
  | bytes n =>
    simp only [takeBytes_mapCause]
    cases takeBytes n rest with
    | got bs r => exact ofInstr?_mapCause f (bytesInstr_mapCause f op arg bs) r
    | resetBy | incomplete | malformed => rfl
  | cause =>
    simp only [takeCause_mapCause]
    cases takeCause rest <;> rfl

/-- The decoder passes causes on, and decides nothing by them. -/
theorem fetch_mapCause (items : List Item) :
    fetch (items.map (Item.mapCause f)) = (fetch items).mapCause f := by
  rcases items with _ | ⟨w | _ | _ | (c | _) | _, rest⟩
  case cons.word =>
    simp only [List.map_cons, Item.mapCause, fetch]
    rcases decodeWord w with _ | ⟨op, arg⟩
    · rfl
    · exact decodeRequest_mapCause f op arg rest
  case cons.read.bytes =>
    simp only [List.map_cons, Item.mapCause, fetch, Fetched.mapCause, decodeRead_bytes_mapCause]
  all_goals rfl

end Sys2Proof

namespace Sys2Proof.Machine

variable (f : Cause → Cause) (s : State)

/-! ### The state -/

@[simp] theorem mapCause_cfg : (s.mapCause f).cfg = s.cfg := rfl
@[simp] theorem mapCause_phase : (s.mapCause f).phase = s.phase := rfl
@[simp] theorem mapCause_cand : (s.mapCause f).cand = s.cand := rfl
@[simp] theorem mapCause_needed : (s.mapCause f).needed = s.needed := rfl
@[simp] theorem mapCause_out : (s.mapCause f).out = s.out := rfl
@[simp] theorem mapCause_rom : (s.mapCause f).rom = s.rom := rfl

@[simp] theorem mapCause_inbox : (s.mapCause f).inbox = s.inbox.map (Item.mapCause f) :=
  List.map_congr_left fun i _ => by rcases i with _ | _ | _ | (_ | _) | _ <;> rfl

/-- The status word reads the error record's code, not its cause (R29). -/
theorem statusWord?_mapCause : statusWord? (s.mapCause f) = statusWord? s := by
  have he : errField? (s.mapCause f) = errField? s := by
    obtain ⟨_, phase, _, _, _, err, _, _, _⟩ := s
    cases phase <;> cases err <;> rfl
  simp only [statusWord?, he, mapCause_phase, mapCause_needed, mapCause_cand]

/-! ### The shared operations -/

theorem requirePhase_mapResult (g : State → State) (legal : Bool) (k : Result) :
    requirePhase legal (mapResult g k) = mapResult g (requirePhase legal k) := by
  cases legal <;> rfl

theorem requireKind_mapResult (g : State → State) (k : Byte) (next : Kind → Result) :
    requireKind k (fun kind => mapResult g (next kind)) = mapResult g (requireKind k next) := by
  unfold requireKind
  cases kindOfByte? k <;> rfl

theorem requireLength_mapCause (c : List Byte) (k : Result) :
    requireLength (s.mapCause f) c (mapResult (State.mapCause f) k) =
      mapResult (State.mapCause f) (requireLength s c k) := by
  unfold requireLength
  rw [mapCause_cfg, apply_ite (mapResult (State.mapCause f))]
  rfl

theorem settle_mapCause (o : Option Compared) :
    settle (s.mapCause f) o = mapResult (State.mapCause f) (settle s o) := by
  rcases o with _ | (bytes | _ | _ | _)
  case some.equal =>
    simp only [settle]
    cases exactly? 9 bytes <;> rfl
  all_goals rfl

theorem chunkStep_mapCause (c : List Byte) :
    chunkStep c (s.mapCause f) = mapResult (State.mapCause f) (chunkStep c s) := by
  simp only [chunkStep, mapCause_cfg, mapCause_cand, mapCause_needed, settle_mapCause]
  split <;> split_ifs <;> rfl

theorem consumeChunk_mapCause (c : List Byte) :
    consumeChunk c (s.mapCause f) = mapResult (State.mapCause f) (consumeChunk c s) := by
  rw [consumeChunk, chunkStep_mapCause, mapCause_phase, requirePhase_mapResult,
    requireLength_mapCause, consumeChunk]

theorem checkPacket_mapCause (kind : Kind) (p : Packet) :
    checkPacket kind p (s.mapCause f) = mapResult (State.mapCause f) (checkPacket kind p s) := by
  unfold checkPacket
  split_ifs <;> rfl

/-! ### The operations and the step -/

theorem execStart_mapCause :
    execStart (s.mapCause f) = mapResult (State.mapCause f) (execStart s) := by
  rw [execStart, execStart, ← requirePhase_mapResult]
  rfl

theorem execEof_mapCause :
    execEof (s.mapCause f) = mapResult (State.mapCause f) (execEof s) := by
  rw [execEof, execEof, ← requirePhase_mapResult]
  rfl

/-- RDERR's own cause is renamed with the state's (R149). -/
theorem execRderr_mapCause (c : Cause) :
    execRderr (f c) (s.mapCause f) = mapResult (State.mapCause f) (execRderr c s) := by
  rw [execRderr, execRderr, ← requirePhase_mapResult]
  rfl

theorem execHdrchk_mapCause (k : Byte) (p : Packet) :
    execHdrchk k p (s.mapCause f) = mapResult (State.mapCause f) (execHdrchk k p s) := by
  rw [execHdrchk, execHdrchk, ← requireKind_mapResult]
  rfl

theorem execGencmd_mapCause (k : Byte) :
    execGencmd k (s.mapCause f) = mapResult (State.mapCause f) (execGencmd k s) := by
  rw [execGencmd, execGencmd, ← requireKind_mapResult]
  rfl

theorem execRdstat_mapCause :
    execRdstat (s.mapCause f) = mapResult (State.mapCause f) (execRdstat s) := by
  simp only [execRdstat, statusWord?_mapCause]
  cases statusWord? s <;> rfl

theorem execRdout_mapCause :
    execRdout (s.mapCause f) = mapResult (State.mapCause f) (execRdout s) := by
  simp only [execRdout, ← requirePhase_mapResult, mapCause_phase, mapCause_out]
  cases s.out <;> rfl

theorem execCheck_mapCause (k : Byte) :
    execCheck k (s.mapCause f) = mapResult (State.mapCause f) (execCheck k s) := by
  simp only [execCheck, ← requireKind_mapResult, ← requirePhase_mapResult, mapCause_phase,
    mapCause_out, checkPacket_mapCause]
  cases s.out <;> rfl

/-- Every operation carries causes, and decides nothing by them (R10, R149). -/
theorem exec_mapCause (i : Instr) :
    exec (mapCauseInstr f i) (s.mapCause f) = mapResult (State.mapCause f) (exec i s) := by
  cases i with
  | start => exact execStart_mapCause f s
  | eof => exact execEof_mapCause f s
  | rderr c => exact execRderr_mapCause f s c
  | cancel | cksum | ckval => rfl
  | rdstat => exact execRdstat_mapCause f s
  | rdout => exact execRdout_mapCause f s
  | hdrchk k p => exact execHdrchk_mapCause f s k p
  | check k => exact execCheck_mapCause f s k
  | gencmd k => exact execGencmd_mapCause f s k
  | chunk c => exact consumeChunk_mapCause f s c
  | readCo2 | readRawCo2 | rspFinal | rspRaw => exact consumeChunk_mapCause f s _

theorem step_mapCause : step (s.mapCause f) = mapResult (State.mapCause f) (step s) := by
  simp only [step, mapCause_inbox, fetch_mapCause]
  cases fetch s.inbox with
  | instr i rest => exact exec_mapCause f { s with inbox := rest } i
  | reset | idle | unfinished | rejected => rfl

end Sys2Proof.Machine

section
open Sys2Proof.Machine

/-- Settles O54: renaming causes commutes with every operation, and with the decoder, so with a step. -/
theorem causesNeverInspected : Obligations.CausesNeverInspected :=
  fun f s i => ⟨exec_mapCause f s i, step_mapCause f s⟩

end

/-!
PROOFS. The statements of 10_state.md: what reset leaves, what no operation writes, the phase
transitions, and the framing invariant, which holds at reset and is kept by every step.
-/

namespace Sys2Proof.Machine

variable {s t : State}

/-! ### What no operation writes -/

/-- R5 to R9, R30: `t` holds the ROM, the parameters and the interface of `s`. -/
def SameSurroundings (s t : State) : Prop := t.rom = s.rom ∧ t.cfg = s.cfg ∧ t.inbox = s.inbox

theorem ChunkEffect.sameSurroundings (h : ChunkEffect s t) : SameSurroundings s t := by
  cases h with
  | ignored | completed | extended | discarded => exact ⟨rfl, rfl, rfl⟩

theorem Effect.sameSurroundings (h : Effect s t) : SameSurroundings s t := by
  cases h with
  | responded | started | cancelled | failed => exact ⟨rfl, rfl, rfl⟩
  | chunk _ hc => exact hc.sameSurroundings

/-! ### The phase transitions -/

/-- A chunk step stays in framing or completes (R131). -/
theorem ChunkEffect.phase_after (h : ChunkEffect s t) (hp : framingPhase s.phase = true) :
    framingPhase t.phase = true ∨ t.phase = .complete := by
  cases h with
  | ignored _ => exact .inl hp
  | completed p => exact .inr rfl
  | extended cand needed => exact .inl rfl
  | discarded => exact .inl rfl

theorem consumeChunk_transition {c : List Byte} (h : consumeChunk c s = .next t) :
    (framingPhase s.phase && (framingPhase t.phase || t.phase == .complete)) = true := by
  obtain ⟨-, -, hp, hs⟩ := consumeChunk_next h
  simpa [hp] using (chunkStep_next hs).phase_after hp

/-- CHECK stays in COMPLETE or enters FAILED (R106). -/
theorem checkPacket_phase_after {kind : Kind} {p : Packet} (h : checkPacket kind p s = .next t) :
    t.phase = s.phase ∨ t.phase = .failed := by
  rcases checkPacket_next h with ⟨-, hf⟩ | ⟨-, -, hf⟩ | ⟨-, -, rfl⟩
  · rw [fail_next.1 hf]; exact .inr rfl
  · rw [fail_next.1 hf]; exact .inr rfl
  · exact .inl rfl

/-- Every operation performed makes a move of the transition table of 41_framer.md. -/
theorem exec_transition {i : Instr} (h : exec i s = .next t) :
    transitionAllowed i s.phase t.phase = true := by
  cases i with
  | start => obtain ⟨hp, rfl⟩ := execStart_next h; simp [transitionAllowed, hp]
  | eof => obtain ⟨hp, rfl⟩ := execEof_next h; simp [transitionAllowed, hp]
  | rderr c => obtain ⟨hp, rfl⟩ := execRderr_next h; simp [transitionAllowed, hp]
  | cancel => rw [execCancel_next h]; rfl
  | rdout => obtain ⟨hp, p, -, rfl⟩ := execRdout_next h; simp [transitionAllowed, hp]
  | check k =>
    obtain ⟨kind, p, -, hp, -, hc⟩ := execCheck_next h
    simpa [transitionAllowed, hp] using checkPacket_phase_after hc
  | rdstat => obtain ⟨w, -, rfl⟩ := execRdstat_next h; simp [transitionAllowed]
  | cksum b => rw [respond_next.1 h]; simp [transitionAllowed]
  | ckval p => rw [respond_next.1 h]; simp [transitionAllowed]
  | hdrchk k p => obtain ⟨kind, -, rfl⟩ := execHdrchk_next h; simp [transitionAllowed]
  | gencmd k => obtain ⟨kind, -, rfl⟩ := execGencmd_next h; simp [transitionAllowed]
  | chunk | readCo2 | readRawCo2 | rspFinal | rspRaw => exact consumeChunk_transition h

/-! ### The invariant: where nothing is collected -/

/-- The invariant speaks of the framing state and the ROM only. -/
theorem State.Inv.of_framing_eq (h : s.Inv) (hf : t.framing = s.framing) (hr : t.rom = s.rom) :
    t.Inv := by
  obtain ⟨_, _, _, _, _, _, _, _, _⟩ := s
  obtain ⟨_, _, _, _, _, _, _, _, _⟩ := t
  cases hf
  cases hr
  exact ⟨h.count, h.hunt_iff, h.head_marker, h.at_rest, h.needed_range, h.out_iff, h.out_marker,
    h.err_iff, h.err_code, h.rom_contents⟩

/-- A fresh framing keeps the invariant in the two phases it is written with: IDLE (R150, R33) and
HUNT (R130). -/
theorem freshFraming_inv {ph : Phase} (hph : ph = .idle ∨ ph = .hunt)
    (hr : s.rom = CommandRom.contents) : (freshFraming ph s).Inv where
  count _ := rfl
  hunt_iff := by rcases hph with rfl | rfl <;> simp [framingPhase]
  head_marker h := absurd rfl h
  at_rest _ := ⟨rfl, rfl⟩
  needed_range := by simp [payloadSize]
  out_iff := by rcases hph with rfl | rfl <;> simp
  out_marker := nofun
  err_iff := by rcases hph with rfl | rfl <;> simp
  err_code := nofun
  rom_contents := hr

/-- R28, R206: an error of the block's own, with a cause exactly for `Reading`. -/
def OwnError (code : ErrorCode) (cause : Option Cause) : Prop :=
  code ≠ .writingToUart ∧ code ≠ .flushingUart ∧ (cause.isSome = true ↔ code = .reading)

/-- The error entry keeps the invariant, for an error of the block's own (R205, R206). -/
theorem failState_inv {code : ErrorCode} {cause : Option Cause} (he : OwnError code cause)
    (hr : s.rom = CommandRom.contents) : (failState code cause s).Inv where
  count h := absurd h (by simp [framingPhase])
  hunt_iff := by simp [framingPhase]
  head_marker h := absurd rfl h
  at_rest _ := ⟨rfl, rfl⟩
  needed_range := by simp [payloadSize]
  out_iff := by simp
  out_marker := nofun
  err_iff := by simp
  err_code e h := by cases h; exact he
  rom_contents := hr

theorem fail_inv {code : ErrorCode} {cause : Option Cause} (he : OwnError code cause)
    (hr : s.rom = CommandRom.contents) (h : fail code cause s = .next t) : t.Inv := by
  rw [fail_next.1 h]
  exact (failState_inv he hr).of_framing_eq rfl rfl

theorem checkPacket_inv {kind : Kind} {p : Packet} (hs : s.Inv)
    (h : checkPacket kind p s = .next t) : t.Inv := by
  rcases checkPacket_next h with ⟨-, hf⟩ | ⟨-, -, hf⟩ | ⟨-, -, rfl⟩
  · exact fail_inv (by simp [OwnError]) hs.rom_contents hf
  · exact fail_inv (by simp [OwnError]) hs.rom_contents hf
  · exact hs.of_framing_eq rfl rfl

/-! ### The invariant: the chunk step -/

/-- What the loop of a chunk step compares in every pass: a count that adds up (R24, R25(a)), and a
candidate that with the body appended begins with the marker (R25(c)). -/
structure Comparable (cand : List Byte) (needed : Nat) (body : List Byte) : Prop where
  count : cand.length + needed = payloadSize
  head_marker : (cand ++ body).head? = some marker

/-- What the outcome of a pass must be for the state it is written to to keep the invariant. -/
def Compared.Framed : Compared → Prop
  | .equal packet => packet.head? = some marker
  | .less cand needed =>
    cand.head? = some marker ∧ cand.length + needed = payloadSize ∧ 1 ≤ needed
  | .discard => True
  | .restart body => body.head? = some marker

/-- A list from where its search for a value ended begins with that value (R12). -/
theorem head?_drop_of_lastIndexOf {l : List Byte} {v : Byte} {lo r : Nat}
    (h : lastIndexOf l v lo = some r) : (l.drop r).head? = some v := by
  obtain ⟨-, -, pre, tail, rfl, rfl, -⟩ := lastIndexFrom_some h
  simp

theorem compareBody_framed {policy : Rescan} {cand body : List Byte} {needed : Nat}
    (h : Comparable cand needed body) : (compareBody policy cand needed body).Framed := by
  obtain ⟨hcount, hhead⟩ := h
  unfold compareBody
  split_ifs with heq hlt
  · exact hhead
  · exact ⟨hhead, by rw [List.length_append]; omega, by omega⟩
  · split
    · trivial
    · next r hr => exact head?_drop_of_lastIndexOf hr

/-- A restart compares the empty candidate with a body that begins with the marker, so every pass of
the loop has a framed outcome. -/
theorem boundaryLoop_framed {policy : Rescan} {passes : Nat} {cand body : List Byte} {needed : Nat}
    {o : Compared} (h : Comparable cand needed body)
    (ho : boundaryLoop policy passes cand needed body = some o) : o.Framed := by
  induction passes generalizing cand needed body with
  | zero => cases ho
  | succ n ih =>
    have hframed := compareBody_framed (policy := policy) h
    rw [boundaryLoop] at ho
    cases hc : compareBody policy cand needed body with
    | restart body' =>
      rw [hc] at ho hframed
      exact ih (cand := []) ⟨rfl, hframed⟩ ho
    | equal | less | discard =>
      rw [hc] at ho hframed
      cases ho
      exact hframed

section Framing

variable (hs : s.Inv) (hp : framingPhase s.phase = true)
include hs hp

/-- While framing no packet is held (R26). -/
theorem State.Inv.out_eq_none : s.out = none := by
  have h : ¬ s.phase = .complete := fun h => by simp [h, framingPhase] at hp
  simpa using mt hs.out_iff.1 h

/-- While framing no error is held (R28). -/
theorem State.Inv.err_eq_none : s.err = none := by
  have h : ¬ s.phase = .failed := fun h => by simp [h, framingPhase] at hp
  simpa using mt hs.err_iff.1 h

/-- A candidate of the invariant is comparable with every chunk, if it is not empty, and with every
body that begins with the marker. -/
theorem State.Inv.comparable {body : List Byte} (h : s.cand ≠ [] ∨ body.head? = some marker) :
    Comparable s.cand s.needed body := by
  refine ⟨hs.count hp, ?_⟩
  by_cases hc : s.cand = []
  · simpa [hc] using h
  · rw [List.head?_append_of_ne_nil _ hc]
    exact hs.head_marker hc

/-- R138: a packet that begins with the marker, held in COMPLETE. -/
theorem completed_inv {p : Packet} {r : Option Response} (h : p.toList.head? = some marker) :
    State.Inv { s with
      out := some p, cand := [], needed := payloadSize, phase := .complete, response := r } where
  count h := absurd h (by simp [framingPhase])
  hunt_iff := by simp [framingPhase]
  head_marker h := absurd rfl h
  at_rest _ := ⟨rfl, rfl⟩
  needed_range := by simp [payloadSize]
  out_iff := by simp
  out_marker q hq := by
    cases hq
    simpa [packet_toList] using h
  err_iff := by simp [hs.err_eq_none hp]
  err_code := hs.err_code
  rom_contents := hs.rom_contents

/-- R139: a framed candidate, held in ACCUM. -/
theorem extended_inv {cand : List Byte} {needed : Nat} {r : Option Response}
    (h : (Compared.less cand needed).Framed) :
    State.Inv { s with cand := cand, needed := needed, phase := .accum, response := r } := by
  obtain ⟨hhead, hcount, hneeded⟩ := h
  have hne : cand ≠ [] := by rintro rfl; simp at hhead
  exact {
    count := fun _ => hcount
    hunt_iff := by simp [hne]
    head_marker := fun _ => hhead
    at_rest := fun h => absurd h (by simp [framingPhase])
    needed_range := ⟨hneeded, hcount ▸ Nat.le_add_left _ _⟩
    out_iff := by simp [hs.out_eq_none hp]
    out_marker := hs.out_marker
    err_iff := by simp [hs.err_eq_none hp]
    err_code := hs.err_code
    rom_contents := hs.rom_contents }

/-- R140: nothing collected, in HUNT: what a fresh framing leaves, since neither a packet nor an error
is held. -/
theorem discarded_inv {r : Option Response} :
    State.Inv { s with cand := [], needed := payloadSize, phase := .hunt, response := r } :=
  (freshFraming_inv (.inr rfl) hs.rom_contents).of_framing_eq
    (by simp [State.framing, freshFraming, hs.out_eq_none hp, hs.err_eq_none hp]) rfl

theorem settle_boundaryLoop_inv {policy : Rescan} {passes needed : Nat} {cand body : List Byte}
    (hc : Comparable cand needed body)
    (h : settle s (boundaryLoop policy passes cand needed body) = .next t) : t.Inv := by
  rcases settle_next h with ⟨p, bytes, ho, rfl, rfl⟩ | ⟨cand', needed', ho, rfl⟩ | ⟨-, rfl⟩
  · exact completed_inv hs hp (boundaryLoop_framed hc ho)
  · exact extended_inv hs hp (boundaryLoop_framed hc ho)
  · exact discarded_inv hs hp

theorem chunkStep_inv {c : List Byte} (h : chunkStep c s = .next t) : t.Inv := by
  unfold chunkStep at h
  split at h
  · split_ifs at h with hc
    · rw [respond_next.1 h]
      exact hs.of_framing_eq rfl rfl
    · exact settle_boundaryLoop_inv hs hp (hs.comparable hp (.inl hc)) h
  · next m hm =>
    have hhead := head?_drop_of_lastIndexOf hm
    split_ifs at h
    · exact settle_boundaryLoop_inv hs hp ⟨rfl, hhead⟩ h
    · exact settle_boundaryLoop_inv hs hp (hs.comparable hp (.inr hhead)) h

end Framing

theorem consumeChunk_inv {c : List Byte} (hs : s.Inv) (h : consumeChunk c s = .next t) : t.Inv := by
  obtain ⟨-, -, hp, hc⟩ := consumeChunk_next h
  exact chunkStep_inv hs hp hc

/-! ### The invariant: every operation and every step -/

theorem exec_inv {i : Instr} (hs : s.Inv) (h : exec i s = .next t) : t.Inv := by
  have hresponded : ∀ r, State.Inv { s with response := r } := fun _ => hs.of_framing_eq rfl rfl
  cases i with
  | start =>
    obtain ⟨-, rfl⟩ := execStart_next h
    exact (freshFraming_inv (.inr rfl) hs.rom_contents).of_framing_eq rfl rfl
  | cancel =>
    rw [execCancel_next h]
    exact (freshFraming_inv (.inl rfl) hs.rom_contents).of_framing_eq rfl rfl
  | eof => exact fail_inv (by simp [OwnError]) hs.rom_contents (requirePhase_next.1 h).2
  | rderr c => exact fail_inv (by simp [OwnError]) hs.rom_contents (requirePhase_next.1 h).2
  | rdstat => obtain ⟨w, -, rfl⟩ := execRdstat_next h; exact hresponded _
  | rdout => obtain ⟨-, p, -, rfl⟩ := execRdout_next h; exact hresponded _
  | cksum b => rw [respond_next.1 h]; exact hresponded _
  | ckval p => rw [respond_next.1 h]; exact hresponded _
  | hdrchk k p => obtain ⟨kind, -, rfl⟩ := execHdrchk_next h; exact hresponded _
  | check k => obtain ⟨kind, p, -, -, -, hc⟩ := execCheck_next h; exact checkPacket_inv hs hc
  | gencmd k => obtain ⟨kind, -, rfl⟩ := execGencmd_next h; exact hresponded _
  | chunk | readCo2 | readRawCo2 | rspFinal | rspRaw => exact consumeChunk_inv hs h

/-- Reset is an IDLE fresh framing with the ROM's contents (R33). -/
theorem reset_inv : State.reset.Inv :=
  (freshFraming_inv (s := State.reset) (.inl rfl) rfl).of_framing_eq rfl rfl

/-- The reset input establishes the invariant, whatever the state was (R230). -/
theorem resetInput_inv (s : State) (rest : List Item) : (resetInput s rest).Inv :=
  reset_inv.of_framing_eq rfl rfl

/-- A step to a next state performed the request at the front of the interface, or was a reset. -/
theorem step_next (h : step s = .next t) :
    (∃ i rest, fetch s.inbox = .instr i rest ∧ exec i { s with inbox := rest } = .next t) ∨
    ∃ rest, fetch s.inbox = .reset rest ∧ t = resetInput s rest := by
  unfold step at h
  split at h
  · next i rest hf => exact .inl ⟨i, rest, hf, h⟩
  · next rest hf => cases h; exact .inr ⟨rest, hf, rfl⟩
  · cases h
  · cases h
  · cases h

theorem step_inv (hs : s.Inv) (h : step s = .next t) : t.Inv := by
  rcases step_next h with ⟨i, rest, -, hi⟩ | ⟨rest, -, rfl⟩
  · exact exec_inv (s := { s with inbox := rest }) (hs.of_framing_eq rfl rfl) hi
  · exact resetInput_inv s rest

end Sys2Proof.Machine

section
open Sys2Proof.Machine

/-- Settles O12: reset's fields are its definition; the status word is computed from them (R29). -/
theorem resetValues : Obligations.ResetValues :=
  ⟨rfl, rfl, rfl, rfl, rfl, rfl, rfl, rfl⟩

/-- Settles O55: reset is an IDLE fresh framing with the ROM's contents. -/
theorem resetKeepsInvariant : Obligations.ResetKeepsInvariant := reset_inv

/-- Settles O52: none of the effects an operation can have writes them. -/
theorem romAndParametersNeverWritten : Obligations.RomAndParametersNeverWritten :=
  fun _ _ _ h => (exec_next h).sameSurroundings

/-- Settles O51: by what each operation requires of the phase before and leaves in the one after. -/
theorem phaseTransitions : Obligations.PhaseTransitions :=
  fun _ _ _ h => exec_transition h

/-- Settles O56: every operation keeps the invariant, and a reset establishes it; the chunk step's loop
keeps a candidate that begins with the marker and a count that adds up, in every pass. -/
theorem stepKeepsInvariant : Obligations.StepKeepsInvariant :=
  fun _ _ hs h => step_inv hs h

end

/-!
PROOFS. The statements of 20_memory.md: the operations that only answer can be repeated, and a packet
row is the chunk of its nine bytes, which framing always answers.
-/

namespace Sys2Proof.Machine

variable {s t : State}

/-! ### The operations that only answer -/

/-- R59: an operation that changed the last response only gives the same next state again, since no
operation reads the last response. -/
theorem exec_repeats {i : Instr} (h : exec i s = .next t) (ht : t = s.withResponse t.response) :
    exec i t = .next t := by
  rw [ht, exec_withResponse, h, ← ht]

/-- R106: a CHECK that answers OK changes the last response only; one that fails answers an error. -/
theorem execCheck_ok {k : Byte} (h : execCheck k s = .next t) (hok : t.response = some .ok) :
    t = s.withResponse (some .ok) := by
  obtain ⟨kind, p, -, -, -, hc⟩ := execCheck_next h
  rcases checkPacket_next hc with ⟨-, hf⟩ | ⟨-, -, hf⟩ | ⟨-, -, ht⟩
  · simp [fail_next.1 hf] at hok
  · simp [fail_next.1 hf] at hok
  · exact ht

/-! ### A chunk in a framing whose count adds up -/

/-- R138: a completed candidate of a packet's length is answered. -/
theorem settle_equal_answers {bytes : List Byte} (h : bytes.length = payloadSize) :
    ∃ t, settle s (some (.equal bytes)) = .next t := by
  obtain ⟨p, -, hp⟩ := settle_equal (s := s) h
  exact ⟨_, hp⟩

/-- R142: with a count that adds up (R25(a)), two passes over a body without a marker settle. -/
theorem settle_boundaryLoop_unmarked {policy : Rescan} {cand body : List Byte} {needed : Nat}
    (hcount : cand.length + needed = payloadSize) (hm : marker ∉ body) :
    ∃ t, settle s (boundaryLoop policy 2 cand needed body) = .next t := by
  rw [boundaryLoop_unmarked hm]
  split_ifs with heq
  · exact settle_equal_answers (by rw [List.length_append, heq, hcount])
  · exact ⟨_, rfl⟩
  · exact ⟨_, rfl⟩

/-- R142: with a count that adds up, two passes over a body that begins at its only marker settle. -/
theorem settle_boundaryLoop_marked {policy : Rescan} {cand tail : List Byte} {needed : Nat}
    (hcount : cand.length + needed = payloadSize) (hm : marker ∉ tail) :
    ∃ t, settle s (boundaryLoop policy 2 cand needed (marker :: tail)) = .next t := by
  rw [boundaryLoop_marked hm]
  split_ifs with heq _ _ hfresh
  · exact settle_equal_answers (by rw [List.length_append, List.length_cons, heq, hcount])
  · exact ⟨_, rfl⟩
  · exact settle_equal_answers hfresh
  · exact ⟨_, rfl⟩
  · exact ⟨_, rfl⟩
  · exact ⟨_, rfl⟩

/-- R134 to R142: with a count that adds up, every chunk step answers a next state. -/
theorem chunkStep_answers (hcount : s.cand.length + s.needed = payloadSize) (c : List Byte) :
    ∃ t, chunkStep c s = .next t := by
  rcases marker_split c with hm | ⟨pre, tail, rfl, hm⟩
  · rw [chunkStep_unmarked hm]
    split_ifs
    · exact ⟨_, rfl⟩
    · exact settle_boundaryLoop_unmarked hcount hm
  · rw [chunkStep_marked hm]
    split_ifs
    · exact settle_boundaryLoop_marked rfl hm
    · exact settle_boundaryLoop_marked hcount hm

/-- R131 to R133: in a framing of the invariant, every chunk of a legal length is answered. -/
theorem consumeChunk_answers {c : List Byte} (hs : s.Inv) (hp : framingPhase s.phase = true)
    (h1 : 1 ≤ c.length) (h2 : c.length ≤ s.cfg.scratchSize) : ∃ t, consumeChunk c s = .next t := by
  rw [consumeChunk_ok h1 h2 hp]
  exact chunkStep_answers (hs.count hp) c

/-! ### The packet rows -/

/-- R73: the bytes of a response packet. -/
theorem responsePacket_toList (kind : Kind) (tail : Seven) :
    (responsePacket kind tail).toList = marker :: kindCode kind :: tail.toList := by
  rw [seven_toList]
  rfl

/-- R53: an operation that consumes a packet as one chunk completes with that chunk's answer, wherever
framing is in progress and the scratch buffer holds a packet. -/
theorem packetRow_completes {row : Instr} {p : Packet} {bytes : List Byte} (hs : s.Inv)
    (hp : framingPhase s.phase = true) (hsize : payloadSize ≤ s.cfg.scratchSize)
    (hbytes : p.toList = bytes) (hrow : exec row s = consumeChunk p.toList s) :
    ∃ t, exec row s = .next t ∧ exec (.chunk bytes) s = .next t := by
  obtain ⟨t, ht⟩ := consumeChunk_answers (c := p.toList) hs hp (by simp)
    (p.length_toList.trans_le hsize)
  exact ⟨t, hrow.trans ht, hbytes ▸ ht⟩

end Sys2Proof.Machine

section
open Sys2Proof Sys2Proof.Machine

/-- Settles O43: each of these operations only responds, by its inversion lemma; and no operation reads
the last response. -/
theorem readOnlyOperationsRepeat : Obligations.ReadOnlyOperationsRepeat := by
  intro s t i h hreadOnly
  have ht : t = s.withResponse t.response := by
    cases i with
    | rdstat => obtain ⟨w, -, rfl⟩ := execRdstat_next h; rfl
    | rdout => obtain ⟨-, p, -, rfl⟩ := execRdout_next h; rfl
    | cksum b => rw [respond_next.1 h]; rfl
    | ckval p => rw [respond_next.1 h]; rfl
    | hdrchk k p => obtain ⟨kind, -, rfl⟩ := execHdrchk_next h; rfl
    | gencmd k => obtain ⟨kind, -, rfl⟩ := execGencmd_next h; rfl
    | check k => rw [execCheck_ok h hreadOnly]; rfl
    | start | chunk | eof | rderr | cancel | readCo2 | readRawCo2 | rspFinal | rspRaw =>
      exact hreadOnly.elim
  exact ⟨ht, exec_repeats h ht⟩

/-- Settles O44: each row consumes its nine bytes as one chunk, and in a framing of the invariant every
chunk of a legal length is answered. -/
theorem packetRowsComplete : Obligations.PacketRowsComplete := fun _ tail hs hp hsize =>
  ⟨packetRow_completes hs hp hsize (p := readCo2Packet) rfl rfl,
    packetRow_completes hs hp hsize (p := readRawCo2Packet) rfl rfl,
    packetRow_completes hs hp hsize (responsePacket_toList .final tail) rfl,
    packetRow_completes hs hp hsize (responsePacket_toList .raw tail) rfl⟩

end

/-!
PROOFS. The statements of 30_encoding.md: the two directions of the request encoding, the payload a
request word decides, the refusals in the order of R84, and the packet rows by their masks.
-/

namespace Sys2Proof

open Machine

/-! ### What a request word decodes to -/

/-- R81, R82: the payload that follows the request word of an operation code and argument, and the
operation that the three are. -/
inductive RequestPayload : Op → Byte → (payload : List Item) → Instr → Prop where
  | bare {op : Op} {arg : Byte} {i : Instr} (hi : bareInstr op arg = some i) :
    RequestPayload op arg [] i
  | rderr (arg : Byte) (c : Cause) : RequestPayload .rderr arg [.cause c] (.rderr c)
  | chunk {arg : Byte} {bs : List Byte} (hlen : bs.length = arg.toNat) :
    RequestPayload .chunk arg (byteItems bs) (.chunk bs)
  | cksum (arg : Byte) (b : Seven) : RequestPayload .cksum arg (byteItems b.toList) (.cksum b)
  | ckval (arg : Byte) (p : Packet) : RequestPayload .ckval arg (byteItems p.toList) (.ckval p)
  | hdrchk (arg : Byte) (p : Packet) :
    RequestPayload .hdrchk arg (byteItems p.toList) (.hdrchk arg p)

/-- The operations with a byte payload, from as many bytes as the word asks for (R81). -/
theorem requestPayload_of_bytesInstr {op : Op} {arg : Byte} {bs : List Byte} {i : Instr}
    (hs : payloadShape op arg = .bytes bs.length) (hi : bytesInstr op arg bs = some i) :
    RequestPayload op arg (byteItems bs) i := by
  cases op with
  | chunk => cases hi; exact .chunk (PayloadShape.bytes.inj hs).symm
  | cksum =>
    obtain ⟨b, hb, rfl⟩ := Option.map_eq_some_iff.1 hi
    exact exactly?_eq_some.1 hb ▸ .cksum arg b
  | ckval =>
    obtain ⟨p, hp, rfl⟩ := Option.map_eq_some_iff.1 hi
    exact exactly?_eq_some.1 hp ▸ .ckval arg p
  | hdrchk =>
    obtain ⟨p, hp, rfl⟩ := Option.map_eq_some_iff.1 hi
    exact exactly?_eq_some.1 hp ▸ .hdrchk arg p
  | start | eof | rderr | cancel | rdstat | rdout | check | gencmd => cases hi

/-- The collected cause was the item in front (R81). -/
theorem takeCause_got {items rest : List Item} {c : Cause} (h : takeCause items = .got c rest) :
    items = .cause c :: rest := by
  rcases items with _ | ⟨_ | _ | _ | _ | _, items⟩ <;> cases h
  rfl

/-- RDERR is the one operation whose payload is a cause (R81). -/
theorem payloadShape_eq_cause {op : Op} {arg : Byte} (h : payloadShape op arg = .cause) :
    op = .rderr := by
  cases op with
  | rderr => rfl
  | start | chunk | eof | cancel | rdstat | rdout | cksum | ckval | hdrchk | check | gencmd => cases h

theorem ofInstr?_eq_instr {i? : Option Instr} {i : Instr} {rest rest' : List Item}
    (h : Fetched.ofInstr? i? rest = .instr i rest') : i? = some i ∧ rest = rest' := by
  cases i? with
  | none => cases h
  | some j => cases h; exact ⟨rfl, rfl⟩

/-- A request that decodes to an operation has taken that operation's payload, and no more. -/
theorem decodeRequest_instr {op : Op} {arg : Byte} {rest rest' : List Item} {i : Instr}
    (h : decodeRequest op arg rest = .instr i rest') :
    ∃ payload, rest = payload ++ rest' ∧ RequestPayload op arg payload i := by
  unfold decodeRequest at h
  cases hs : payloadShape op arg with
  | none =>
    simp only [hs] at h
    obtain ⟨hi, rfl⟩ := ofInstr?_eq_instr h
    exact ⟨[], rfl, .bare hi⟩
  | cause =>
    simp only [hs] at h
    cases hc : takeCause rest with
    | got c r =>
      simp only [hc] at h
      cases h
      cases payloadShape_eq_cause hs
      exact ⟨[.cause c], takeCause_got hc, .rderr arg c⟩
    | resetBy | incomplete | malformed => simp [hc] at h
  | bytes n =>
    simp only [hs] at h
    cases hb : takeBytes n rest with
    | got bs r =>
      simp only [hb] at h
      obtain ⟨hi, rfl⟩ := ofInstr?_eq_instr h
      obtain ⟨rfl, hrest⟩ := takeBytes_got hb
      exact ⟨byteItems bs, hrest, requestPayload_of_bytesInstr hs hi⟩
    | resetBy | incomplete | malformed => simp [hb] at h

/-- A request word that decodes to an operation names its code and argument, and the operation's
payload stands behind it (R80 to R83). -/
theorem fetch_word_instr {w : Word} {rest rest' : List Item} {i : Instr}
    (h : fetch (.word w :: rest) = .instr i rest') :
    ∃ op arg payload, w = requestWord op arg ∧ (opTakesArg op = false → arg = 0) ∧
      rest = payload ++ rest' ∧ RequestPayload op arg payload i := by
  rw [fetch] at h
  cases hd : decodeWord w with
  | error e => simp [hd] at h
  | ok opArg =>
    obtain ⟨op, arg⟩ := opArg
    simp only [hd] at h
    obtain ⟨hw, harg⟩ := decodeWord_ok.1 hd
    obtain ⟨payload, hrest, hp⟩ := decodeRequest_instr h
    exact ⟨op, arg, payload, hw, harg, hrest, hp⟩

/-- R82, R83: the request of an operation is its word and its payload. -/
theorem encode_of_requestPayload {op : Op} {arg : Byte} {payload : List Item} {i : Instr}
    (harg : opTakesArg op = false → arg = 0) (h : RequestPayload op arg payload i) :
    encode i = .word (requestWord op arg) :: payload := by
  cases h with
  | bare hi =>
    cases op with
    | check | gencmd => cases hi; rfl
    | start | eof | cancel | rdstat | rdout => cases hi; rw [harg rfl]; rfl
    | chunk | rderr | cksum | ckval | hdrchk => cases hi
  | chunk hlen => rw [encode, hlen, BitVec.ofNat_toNat, BitVec.setWidth_eq]
  | hdrchk => rfl
  | rderr | cksum | ckval => rw [harg rfl]; rfl

/-! ### What the decoder turns away at the word -/

/-- R85: the codes outside R82's map. -/
theorem opOfCode?_eq_none {b : Byte} :
    opOfCode? b = none ↔
      b.toNat = 0x00 ∨ (0x08 ≤ b.toNat ∧ b.toNat ≤ 0x0F) ∨ (0x14 ≤ b.toNat ∧ b.toNat ≤ 0x1F) ∨
        0x21 ≤ b.toNat := by
  constructor
  · intro h
    have hne : ∀ op, b.toNat ≠ (opCode op).toNat := fun op he => by
      simp [opOfCode?_eq_some.2 (BitVec.eq_of_toNat_eq he)] at h
    have h01 : b.toNat ≠ 0x01 := hne .start
    have h02 : b.toNat ≠ 0x02 := hne .chunk
    have h03 : b.toNat ≠ 0x03 := hne .eof
    have h04 : b.toNat ≠ 0x04 := hne .rderr
    have h05 : b.toNat ≠ 0x05 := hne .cancel
    have h06 : b.toNat ≠ 0x06 := hne .rdstat
    have h07 : b.toNat ≠ 0x07 := hne .rdout
    have h10 : b.toNat ≠ 0x10 := hne .cksum
    have h11 : b.toNat ≠ 0x11 := hne .ckval
    have h12 : b.toNat ≠ 0x12 := hne .hdrchk
    have h13 : b.toNat ≠ 0x13 := hne .check
    have h20 : b.toNat ≠ 0x20 := hne .gencmd
    omega
  · intro h
    cases hop : opOfCode? b with
    | none => rfl
    | some op =>
      rw [opOfCode?_eq_some.1 hop] at h
      revert h
      cases op <;> decide

/-- R85: a word is turned away for its `OP` exactly if the code is reserved. -/
theorem decodeWord_badOpcode {w : Word} :
    decodeWord w = .error .badOpcode ↔ opOfCode? (wordOp w) = none := by
  unfold decodeWord
  cases opOfCode? (wordOp w) with
  | none => simp
  | some op => simp only; split_ifs <;> simp

/-- R83: an operation that takes no argument is turned away with one. -/
theorem decodeWord_badArg {w : Word} {op : Op} (hop : wordOp w = opCode op)
    (ht : opTakesArg op = false) (harg : wordArg w ≠ 0) : decodeWord w = .error .badArg := by
  rw [decodeWord, hop, opOfCode?_opCode]
  exact if_pos ⟨ht, harg⟩

theorem decodeRequest_ne_badOpcode (op : Op) (arg : Byte) (rest : List Item) :
    decodeRequest op arg rest ≠ .rejected .badOpcode := by
  have hof : ∀ i? r, Fetched.ofInstr? i? r ≠ .rejected .badOpcode := by
    intro i? r; cases i? <;> simp [Fetched.ofInstr?]
  unfold decodeRequest
  cases payloadShape op arg with
  | none => exact hof _ _
  | cause => simp only; cases takeCause rest <;> nofun
  | bytes n =>
    simp only
    cases takeBytes n rest with
    | got bs r => exact hof _ _
    | resetBy | incomplete | malformed => nofun

/-- R84 step 1: what stands in front is turned away for its `OP` exactly if its word is. -/
theorem fetch_word_badOpcode {w : Word} {rest : List Item} :
    fetch (.word w :: rest) = .rejected .badOpcode ↔ opOfCode? (wordOp w) = none := by
  rw [← decodeWord_badOpcode, fetch]
  cases decodeWord w with
  | error e => simp
  | ok opArg => simp [decodeRequest_ne_badOpcode]

/-- R82, R83: the codes of the operations without an argument. -/
theorem exists_op_without_arg {b : Byte}
    (h : b ∈ ([0x01, 0x03, 0x04, 0x05, 0x06, 0x07, 0x10, 0x11] : List Byte)) :
    ∃ op, b = opCode op ∧ opTakesArg op = false := by
  have hcodes : ([0x01, 0x03, 0x04, 0x05, 0x06, 0x07, 0x10, 0x11] : List Byte) =
      [Op.start, .eof, .rderr, .cancel, .rdstat, .rdout, .cksum, .ckval].map opCode := rfl
  obtain ⟨op, hop, rfl⟩ := List.mem_map.1 (hcodes ▸ h)
  refine ⟨op, rfl, ?_⟩
  revert hop
  cases op <;> decide

end Sys2Proof

namespace Sys2Proof.Machine

variable {s : State}

/-! ### What is refused -/

/-- R84: `result` is refused for its argument, where `argument` gives a reason, or else for the phase,
where it is not `legal`; and for nothing else. -/
def RefusesBy (result : Result) (argument : Option Refusal) (legal : Bool) : Prop :=
  ∀ r, result = .refused r ↔ argument = some r ∨ argument = none ∧ legal = false ∧ r = .badPhase

/-- R83, R133: the refusal of a chunk of `n` bytes. -/
def lengthRefusal? (cfg : Config) (n : Nat) : Option Refusal :=
  if n = 0 ∨ cfg.scratchSize < n then some .badLength else none

/-- R83: the refusal of a kind operand. -/
def kindRefusal? (k : Byte) : Option Refusal :=
  if kindOfByte? k = none then some .badKind else none

/-- R84 step 2: the refusal of an operation's argument. -/
def argumentRefusal? (cfg : Config) : Instr → Option Refusal
  | .chunk c => lengthRefusal? cfg c.length
  | .readCo2 | .readRawCo2 | .rspFinal _ | .rspRaw _ => lengthRefusal? cfg payloadSize
  | .hdrchk k _ | .check k | .gencmd k => kindRefusal? k
  | .start | .eof | .rderr _ | .cancel | .rdstat | .rdout | .cksum _ | .ckval _ => none

theorem refusesBy_of_never {result : Result} (h : ∀ r, result ≠ .refused r) :
    RefusesBy result none true := by
  intro r
  simp [h r]

theorem respond_refusesBy (r : Response) (s : State) : RefusesBy (respond r s) none true :=
  refusesBy_of_never nofun

theorem requirePhase_refusesBy {legal : Bool} {k : Result} (hk : ∀ r, k ≠ .refused r) :
    RefusesBy (requirePhase legal k) none legal := by
  intro r
  cases legal <;> simp [requirePhase, hk r, eq_comm]

theorem requireKind_refusesBy {k : Byte} {f : Kind → Result} {legal : Bool}
    (hf : ∀ kind, RefusesBy (f kind) none legal) :
    RefusesBy (requireKind k f) (kindRefusal? k) legal := by
  intro r
  unfold requireKind kindRefusal?
  cases kindOfByte? k with
  | none => simp
  | some kind => simpa using hf kind r

theorem requireLength_refusesBy {c : List Byte} {k : Result} {legal : Bool}
    (hk : RefusesBy k none legal) :
    RefusesBy (requireLength s c k) (lengthRefusal? s.cfg c.length) legal := by
  intro r
  unfold requireLength lengthRefusal?
  split_ifs
  · simp
  · simpa using hk r

theorem settle_ne_refused (o : Option Compared) (r : Refusal) : settle s o ≠ .refused r := by
  rcases o with _ | (bytes | _ | _ | _)
  case some.equal =>
    rw [settle]
    cases exactly? 9 bytes <;> nofun
  all_goals nofun

theorem chunkStep_ne_refused (c : List Byte) (r : Refusal) : chunkStep c s ≠ .refused r := by
  unfold chunkStep
  split
  · split_ifs
    · nofun
    · exact settle_ne_refused _ r
  · split_ifs
    · exact settle_ne_refused _ r
    · exact settle_ne_refused _ r

theorem consumeChunk_refusesBy (c : List Byte) :
    RefusesBy (consumeChunk c s) (lengthRefusal? s.cfg c.length) (framingPhase s.phase) :=
  requireLength_refusesBy (requirePhase_refusesBy (chunkStep_ne_refused c))

theorem checkPacket_ne_refused (kind : Kind) (p : Packet) (r : Refusal) :
    checkPacket kind p s ≠ .refused r := by
  unfold checkPacket
  split_ifs <;> nofun

/-- R84: every operation checks its argument, then its phase, and refuses for nothing else. -/
theorem exec_refusesBy (i : Instr) (s : State) :
    RefusesBy (exec i s) (argumentRefusal? s.cfg i) (legalPhase i s.phase) := by
  have hframing : (s.phase == .hunt || s.phase == .accum) = framingPhase s.phase := by
    cases s.phase <;> rfl
  have hoff : (s.phase == .idle || s.phase == .complete || s.phase == .failed) =
      !framingPhase s.phase := by
    cases s.phase <;> rfl
  cases i with
  | start => rw [legalPhase, hoff]; exact requirePhase_refusesBy nofun
  | eof | rderr => rw [legalPhase, hframing]; exact requirePhase_refusesBy nofun
  | cancel | cksum | ckval => exact respond_refusesBy _ _
  | rdstat => exact refusesBy_of_never fun r => by simp only [exec, execRdstat]; split <;> nofun
  | rdout => exact requirePhase_refusesBy fun r => by split <;> nofun
  | check k =>
    refine requireKind_refusesBy fun kind => requirePhase_refusesBy fun r => ?_
    split
    · exact checkPacket_ne_refused kind _ r
    · nofun
  | hdrchk | gencmd => exact requireKind_refusesBy fun kind => respond_refusesBy _ _
  | chunk c => rw [legalPhase, hframing]; exact consumeChunk_refusesBy c
  | readCo2 | readRawCo2 | rspFinal | rspRaw =>
    rw [legalPhase, hframing]; exact consumeChunk_refusesBy _

/-- R83: a refusal for the argument is one of two. -/
theorem argumentRefusal?_eq_some {cfg : Config} {i : Instr} {r : Refusal}
    (h : argumentRefusal? cfg i = some r) : r = .badLength ∨ r = .badKind := by
  have hlength : ∀ n, lengthRefusal? cfg n = some r → r = .badLength := by
    intro n hn; simp only [lengthRefusal?] at hn; split_ifs at hn; cases hn; rfl
  have hkind : ∀ k, kindRefusal? k = some r → r = .badKind := by
    intro k hk; simp only [kindRefusal?] at hk; split_ifs at hk; cases hk; rfl
  cases i with
  | chunk | readCo2 | readRawCo2 | rspFinal | rspRaw => exact .inl (hlength _ h)
  | hdrchk | check | gencmd => exact .inr (hkind _ h)
  | start | eof | rderr | cancel | rdstat | rdout | cksum | ckval => cases h

theorem lengthRefusal?_eq_none {cfg : Config} {n : Nat} (h1 : 1 ≤ n) (h2 : n ≤ cfg.scratchSize) :
    lengthRefusal? cfg n = none := if_neg (by omega)

/-- R83: a well-formed operation passes the check of its argument, in a scratch buffer that holds a
packet. -/
theorem argumentRefusal?_of_wellFormed {cfg : Config} {i : Instr} (hi : i.wellFormed cfg = true)
    (hsize : payloadSize ≤ cfg.scratchSize) : argumentRefusal? cfg i = none := by
  have hkind : ∀ k, (kindOfByte? k).isSome = true → kindRefusal? k = none := by
    intro k hk
    exact if_neg (Option.isSome_iff_ne_none.1 hk)
  cases i with
  | chunk c =>
    simp only [Instr.wellFormed, Bool.and_eq_true, decide_eq_true_eq] at hi
    exact lengthRefusal?_eq_none hi.1.1 hi.1.2
  | hdrchk | check | gencmd => exact hkind _ hi
  | readCo2 | readRawCo2 | rspFinal | rspRaw => exact lengthRefusal?_eq_none (by decide) hsize
  | start | eof | rderr | cancel | rdstat | rdout | cksum | ckval => rfl

/-- R84 step 2: a complete request whose argument fails its check is refused, in every phase. -/
theorem step_refused_of_argument {i : Instr} {rest : List Item} {r : Refusal}
    (h : fetch s.inbox = .instr i rest) (hr : argumentRefusal? s.cfg i = some r) :
    step s = .refused r :=
  (stepRunsRequest s i rest h).trans ((exec_refusesBy i _ r).2 (.inl hr))

/-- R85: a step is refused for its `OP` exactly if the decoder turns the word away for it. -/
theorem step_badOpcode : step s = .refused .badOpcode ↔ fetch s.inbox = .rejected .badOpcode := by
  rw [step]
  cases fetch s.inbox with
  | instr i rest =>
    refine iff_of_false (fun h => ?_) nofun
    rcases (exec_refusesBy i _ _).1 h with hr | ⟨-, -, hr⟩
    · rcases argumentRefusal?_eq_some hr with hr | hr <;> cases hr
    · cases hr
  | reset | idle | unfinished => simp
  | rejected e => cases e <;> simp [refusalOfDecode]

end Sys2Proof.Machine

namespace Sys2Proof.Machine

/-! ### A packet and its number -/

/-- R78: a packet's number, written out. -/
theorem packetNumber_eq (p : Packet) :
    packetNumber p =
      p[0].toNat * 256 ^ 8 + p[1].toNat * 256 ^ 7 + p[2].toNat * 256 ^ 6 + p[3].toNat * 256 ^ 5 +
        p[4].toNat * 256 ^ 4 + p[5].toNat * 256 ^ 3 + p[6].toNat * 256 ^ 2 + p[7].toNat * 256 +
        p[8].toNat := by
  rw [packetNumber, packet_toList]
  simp only [List.foldl_cons, List.foldl_nil]
  omega

/-- R78: nothing of a packet is lost in its number. -/
theorem packetOfNumber_packetNumber (p : Packet) : packetOfNumber (packetNumber p) = p := by
  ext1 i hi
  apply BitVec.eq_of_toNat_eq
  simp only [packetOfNumber, Vector.getElem_ofFn, BitVec.toNat_ofNat, Nat.shiftRight_eq_div_pow,
    packetNumber_eq]
  interval_cases i <;> simp <;> omega

theorem packetNumber_inj {p q : Packet} : packetNumber p = packetNumber q ↔ p = q :=
  ⟨fun h => by rw [← packetOfNumber_packetNumber p, h, packetOfNumber_packetNumber], congrArg _⟩

theorem packetNumber_lt (p : Packet) : packetNumber p < 2 ^ 72 := by
  rw [packetNumber_eq]
  omega

/-- R78: a row that fixes all 72 bits matches its own packet only. -/
theorem packetNumber_fullMask (p q : Packet) :
    packetNumber p &&& 0xFFFFFFFFFFFFFFFFFF = packetNumber q ↔ p = q := by
  rw [show 0xFFFFFFFFFFFFFFFFFF = 2 ^ 72 - 1 from rfl,
    Nat.and_two_pow_sub_one_of_lt_two_pow (packetNumber_lt p), packetNumber_inj]

/-- Masking the bits from `k` up masks what stands above bit `k`. -/
theorem and_shiftLeft_eq (x m k : Nat) : x &&& m <<< k = ((x >>> k) &&& m) <<< k := by
  apply Nat.eq_of_testBit_eq
  intro i
  by_cases h : k ≤ i <;> simp [h]

/-- R78: a row that fixes the two header bytes matches the packets with that header. -/
theorem packetNumber_headerMask (p : Packet) (b0 b1 : Byte) :
    packetNumber p &&& 0xFFFF00000000000000 = (b0.toNat * 256 + b1.toNat) <<< 56 ↔
      p[0] = b0 ∧ p[1] = b1 := by
  have htop : packetNumber p >>> 56 = p[0].toNat * 256 + p[1].toNat := by
    rw [Nat.shiftRight_eq_div_pow, packetNumber_eq]
    omega
  rw [show 0xFFFF00000000000000 = (2 ^ 16 - 1) <<< 56 from rfl, and_shiftLeft_eq, htop,
    Nat.and_two_pow_sub_one_of_lt_two_pow (by omega), Nat.shiftLeft_eq, Nat.shiftLeft_eq]
  rw [← BitVec.toNat_inj, ← BitVec.toNat_inj]
  omega

/-! ### The packet rows -/

open Laws.RoundTrip (decodePacket_responsePacket)

/-- R73: the packets of a response row are those with its header. -/
theorem exists_responsePacket {kind : Kind} {p : Packet} :
    (∃ t, p = responsePacket kind t) ↔ p[0] = marker ∧ p[1] = kindCode kind := by
  constructor
  · rintro ⟨t, rfl⟩
    exact ⟨rfl, rfl⟩
  · rintro ⟨h0, h1⟩
    refine ⟨#v[p[2], p[3], p[4], p[5], p[6], p[7], p[8]], ?_⟩
    ext1 i hi
    interval_cases i
    · exact h0
    · exact h1
    all_goals rfl

/-- R72: the decoder names READ_CO2 for its packet only. -/
theorem decodePacket_eq_readCo2 {p : Packet} :
    decodePacket p = some .readCo2 ↔ p = readCo2Packet := by
  unfold decodePacket
  split_ifs with h <;> simp [h]

/-- R72: the decoder names READ_RAW_CO2 for its packet only. -/
theorem decodePacket_eq_readRawCo2 {p : Packet} :
    decodePacket p = some .readRawCo2 ↔ p = readRawCo2Packet := by
  unfold decodePacket
  split_ifs with h1 h2
  · subst h1; decide
  all_goals simp [h2]

/-- R73: the row of a response kind, with its packet's bytes 2 to 8. -/
def responseRow : Kind → Seven → Instr
  | .final => .rspFinal
  | .raw => .rspRaw

theorem responseRow_injective (kind : Kind) : Function.Injective (responseRow kind) := by
  intro t u h
  cases kind <;> cases h <;> rfl

/-- R73: the decoder names a response row for a packet with its header only. -/
theorem header_of_decodePacket_responseRow {kind : Kind} {p : Packet} {t : Seven}
    (h : decodePacket p = some (responseRow kind t)) : p[0] = marker ∧ p[1] = kindCode kind := by
  unfold decodePacket at h
  cases kind with
  | final =>
    split_ifs at h with _ _ hfinal
    · cases h
    · cases h
    · exact hfinal
    · cases h
  | raw =>
    split_ifs at h with _ _ _ hraw
    · cases h
    · cases h
    · cases h
    · exact hraw

/-- R73: the decoder names a response row exactly for the row's header with the bytes it gives. -/
theorem decodePacket_eq_responseRow {kind : Kind} {p : Packet} {t : Seven} :
    decodePacket p = some (responseRow kind t) ↔ p = responsePacket kind t := by
  have hrow : ∀ u, decodePacket (responsePacket kind u) = some (responseRow kind u) := fun u => by
    rw [decodePacket_responsePacket]; cases kind <;> rfl
  constructor
  · intro h
    obtain ⟨u, rfl⟩ := exists_responsePacket.2 (header_of_decodePacket_responseRow h)
    rw [responseRow_injective kind (Option.some.inj ((hrow u).symm.trans h))]
  · rintro rfl
    exact hrow t

theorem exists_decodePacket_responseRow {kind : Kind} {p : Packet} :
    (∃ t, decodePacket p = some (responseRow kind t)) ↔ p[0] = marker ∧ p[1] = kindCode kind := by
  simp only [decodePacket_eq_responseRow, exists_responsePacket]

/-! ### A response packet, framed and checked -/

variable {s : State}

/-- R138: the state in which a chunk step has completed with this packet. -/
def completedState (p : Packet) (s : State) : State :=
  { s with
    out := some p, cand := [], needed := payloadSize, phase := .complete, response := some (.done p) }

/-- R136, R138: in HUNT, nothing is collected, so a packet that begins at its only marker completes. -/
theorem consumeChunk_packet_hunt {p : Packet} {tail : List Byte} (hs : s.Inv)
    (hhunt : s.phase = .hunt) (hsize : payloadSize ≤ s.cfg.scratchSize)
    (hp : p.toList = marker :: tail) (hm : marker ∉ tail) :
    consumeChunk p.toList s = .next (completedState p s) := by
  obtain ⟨hframing, hcand⟩ := hs.hunt_iff.1 hhunt
  have hneeded : s.needed = payloadSize := by simpa [hcand] using hs.count hframing
  have hlen : tail.length + 1 = payloadSize := by
    rw [← List.length_cons (a := marker), ← hp, p.length_toList]; rfl
  have hsettle : settle s (boundaryLoop s.cfg.rescan 2 [] payloadSize (marker :: tail)) =
      .next (completedState p s) := by
    rw [boundaryLoop_marked hm, if_pos hlen, List.nil_append, ← hp, settle, exactly?_toList]
    rfl
  rw [consumeChunk_ok (by simp) (p.length_toList.trans_le hsize) hframing, hp,
    ← List.nil_append (marker :: tail), chunkStep_marked hm, hcand, hneeded, hsettle, ite_self]

/-- R73: a response packet without further markers completes in HUNT. -/
theorem exec_responseRow_hunt {tail : Seven} (hs : s.Inv) (hhunt : s.phase = .hunt)
    (hsize : payloadSize ≤ s.cfg.scratchSize) (hm : marker ∉ tail.toList) (kind : Kind) :
    exec (responseRow kind tail) s = .next (completedState (responsePacket kind tail) s) := by
  have hkind : marker ≠ kindCode kind := by cases kind <;> decide
  have hrow : exec (responseRow kind tail) s = consumeChunk (responsePacket kind tail).toList s := by
    cases kind <;> rfl
  rw [hrow]
  exact consumeChunk_packet_hunt hs hhunt hsize (responsePacket_toList kind tail)
    (by simp [hkind, hm])

/-- R106: CHECK in COMPLETE judges the packet held. -/
theorem exec_check_complete (kind : Kind) {p : Packet} (hphase : s.phase = .complete)
    (hout : s.out = some p) : exec (.check (kindCode kind)) s = checkPacket kind p s := by
  simp [exec, execCheck, hphase, hout, requirePhase]

/-- An operation that answers hands its state on to those that follow it. -/
theorem execAll_cons {t : State} {i : Instr} {is : List Instr} (h : exec i s = .next t) :
    execAll (i :: is) s = execAll is t := by
  rw [execAll, h]

/-- R106, R107: the verdict on a packet: its checksum, then its header. -/
def checkVerdict (kind : Kind) (p : Packet) : Response :=
  if checksumValid p = false then .error .invalidChecksum none
  else if headerValid p kind = false then .error .invalidPacket none
  else .ok

/-- R106: CHECK of a packet always answers its verdict. -/
theorem checkPacket_answers (kind : Kind) (p : Packet) (s : State) :
    ∃ t, checkPacket kind p s = .next t ∧ t.response = some (checkVerdict kind p) := by
  unfold checkPacket checkVerdict
  split_ifs <;> exact ⟨_, rfl, rfl⟩

/-- R104: the header of a response packet is its own kind's. -/
theorem headerValid_responsePacket {kind checked : Kind} {tail : Seven} :
    headerValid (responsePacket kind tail) checked = false ↔ kindCode kind ≠ kindCode checked := by
  simp [headerValid, responsePacket]

end Sys2Proof.Machine

section
open Sys2Proof Sys2Proof.Machine

/-- Settles O1: constructor by constructor, by what the decoder does with each request and packet. -/
theorem decodeOfEncode : Obligations.DecodeOfEncode := by
  intro cfg i rest h
  cases i with
  | start => exact Laws.RoundTrip.start cfg rest h
  | chunk c => exact Laws.RoundTrip.chunk c cfg rest h
  | eof => exact Laws.RoundTrip.eof cfg rest h
  | rderr cause => exact Laws.RoundTrip.rderr cause cfg rest h
  | cancel => exact Laws.RoundTrip.cancel cfg rest h
  | rdstat => exact Laws.RoundTrip.rdstat cfg rest h
  | rdout => exact Laws.RoundTrip.rdout cfg rest h
  | cksum b => exact Laws.RoundTrip.cksum b cfg rest h
  | ckval p => exact Laws.RoundTrip.ckval p cfg rest h
  | hdrchk k p => exact Laws.RoundTrip.hdrchk k p cfg rest h
  | check k => exact Laws.RoundTrip.check k cfg rest h
  | gencmd k => exact Laws.RoundTrip.gencmd k cfg rest h
  | readCo2 => exact Laws.RoundTrip.readCo2 cfg rest h
  | readRawCo2 => exact Laws.RoundTrip.readRawCo2 cfg rest h
  | rspFinal tail => exact Laws.RoundTrip.rspFinal tail cfg rest h
  | rspRaw tail => exact Laws.RoundTrip.rspRaw tail cfg rest h

/-- Settles O2: a decoded word is its operation's code and argument, followed by that
operation's payload. -/
theorem encodeOfDecode : Obligations.EncodeOfDecode := by
  intro w rest i rest' h
  obtain ⟨op, arg, payload, rfl, harg, rfl, hp⟩ := fetch_word_instr h
  rw [encode_of_requestPayload harg hp, List.cons_append]

/-- Settles O3: the operation of the word's code selects the row of R81's table. -/
theorem payloadDecidedByWord : Obligations.PayloadDecidedByWord := by
  intro w rest i rest' h
  obtain ⟨op, arg, payload, rfl, -, rfl, hp⟩ := fetch_word_instr h
  refine ⟨payload, rfl, ?_⟩
  rw [wordOp_requestWord, wordArg_requestWord]
  cases hp with
  | chunk hlen => exact Exists.intro _ ⟨rfl, hlen, rfl⟩
  | rderr _ c => exact Exists.intro c ⟨rfl, rfl⟩
  | cksum _ b => exact Exists.intro b ⟨rfl, rfl⟩
  | ckval _ p => exact Exists.intro p ⟨rfl, rfl⟩
  | hdrchk _ p => exact Exists.intro p ⟨rfl, rfl⟩
  | bare hi =>
    cases op with
    | start | eof | cancel | rdstat | rdout | check | gencmd => exact rfl
    | chunk | rderr | cksum | ckval | hdrchk => cases hi

/-- Settles O4: only a reserved code is turned away with that reason, since no operation
refuses with it. -/
theorem reservedOpcodesRefused : Obligations.ReservedOpcodesRefused := by
  intro s w rest h
  rw [step_badOpcode, h, fetch_word_badOpcode, opOfCode?_eq_none]

/-- Settles O5: the first refusal is the decoder's, at the word; the other two are the operation's check
of its argument, which comes before its phase. -/
theorem argumentsRefused : Obligations.ArgumentsRefused := by
  intro s rest
  refine ⟨fun w h hop harg => ?_, fun n bs hlen h hn => ?_, fun k p h86 h85 h => ?_⟩
  · obtain ⟨op, hcode, ht⟩ := exists_op_without_arg hop
    rw [step, h, fetch, decodeWord_badArg hcode ht harg]
    rfl
  · have hf : fetch s.inbox = .instr (.chunk bs) rest :=
      h ▸ fetch_bytes rest (by simp [opTakesArg]) rfl hlen rfl
    have hbad : bs.length = 0 ∨ s.cfg.scratchSize < bs.length :=
      hlen ▸ hn.imp_left (congrArg BitVec.toNat)
    exact step_refused_of_argument hf (if_pos hbad)
  · have hbad : kindRefusal? k = some .badKind := if_pos (kindOfByte?_eq_none.2 ⟨h86, h85⟩)
    rcases h with h | h | h
    · have hf : fetch s.inbox = .instr (.hdrchk k p) rest :=
        h ▸ fetch_bytes rest (by simp [opTakesArg]) rfl (by simp)
          (by simp [bytesInstr, exactly?_toList])
      exact step_refused_of_argument hf hbad
    · have hf : fetch s.inbox = .instr (.check k) rest :=
        h ▸ fetch_bare rest (by simp [opTakesArg]) rfl rfl
      exact step_refused_of_argument hf hbad
    · have hf : fetch s.inbox = .instr (.gencmd k) rest :=
        h ▸ fetch_bare rest (by simp [opTakesArg]) rfl rfl
      exact step_refused_of_argument hf hbad

/-- Settles O6: a well-formed operation passes the check of its argument, which leaves the phase. -/
theorem wrongPhaseRefused : Obligations.WrongPhaseRefused := by
  intro s i hi hsize
  rw [exec_refusesBy i s, argumentRefusal?_of_wellFormed hi hsize]
  simp

/-- Settles O8: the packets a row is decoded from are one packet, or those with one header; the row's
mask compares the whole number, or its top two bytes. -/
theorem packetRowsByMask : Obligations.PacketRowsByMask := fun p =>
  ⟨decodePacket_eq_readCo2.trans (packetNumber_fullMask p readCo2Packet).symm,
    decodePacket_eq_readRawCo2.trans (packetNumber_fullMask p readRawCo2Packet).symm,
    exists_decodePacket_responseRow.trans (packetNumber_headerMask p marker (kindCode .final)).symm,
    fun _ h => (decodePacket_eq_responseRow (kind := .final).1 h).symm,
    exists_decodePacket_responseRow.trans (packetNumber_headerMask p marker (kindCode .raw)).symm,
    fun _ h => (decodePacket_eq_responseRow (kind := .raw).1 h).symm,
    packetOfNumber_packetNumber p⟩

/-- Settles O46: the row completes in COMPLETE with its packet, which CHECK then judges. -/
theorem responsePacketChecked : Obligations.ResponsePacketChecked := by
  intro s tail k hs hhunt hsize hm hk row hrow
  obtain ⟨kind, rfl⟩ : ∃ kind, row = (responseRow kind tail, kind) := by
    rcases List.mem_pair.1 hrow with rfl | rfl
    · exact ⟨.final, rfl⟩
    · exact ⟨.raw, rfl⟩
  obtain ⟨checked, rfl⟩ : ∃ checked, k = kindCode checked := by
    rcases hk with rfl | rfl
    · exact ⟨.final, rfl⟩
    · exact ⟨.raw, rfl⟩
  obtain ⟨t, ht, hresponse⟩ := checkPacket_answers checked (responsePacket kind tail)
    (completedState (responsePacket kind tail) s)
  have hcheck : exec (.check (kindCode checked)) (completedState (responsePacket kind tail) s) =
      .next t := (exec_check_complete checked rfl rfl).trans ht
  refine ⟨t, ?_, ?_⟩
  · rw [execAll_cons (exec_responseRow_hunt hs hhunt hsize hm kind), execAll_cons hcheck, execAll]
  · rw [hresponse, checkVerdict]
    simp only [headerValid_responsePacket]

/-- Settles O7: the decoder evaluated on the written words. -/
theorem writtenWordsDecode : Obligations.WrittenWordsDecode :=
  ⟨by decide, by decide, by decide, by decide, by decide, by decide, by decide, by decide⟩

end

/-!
PROOFS. The statements of 40_codec.md: the checksum and its laws, the requests and the answers of the
codec's operations, their independence of the framing, and a command echoed back into the framer.
-/

namespace Sys2Proof.Machine

/-! ### The checksum -/

/-- R100: the closed form of the checksum, by exact sums. -/
theorem toNat_checksum (b : Seven) :
    (checksum b).toNat = (256 - (b.toList.map BitVec.toNat).sum % 256) % 256 := by
  rw [checksum, complementPlusOne_eq_neg, BitVec.toNat_neg, toNat_sumBytes]

/-- R103: bytes 1 to 8 of a packet, by its interior bytes. -/
theorem toList_tail_eq_interiorBytes (p : Packet) :
    p.toList.tail = (interiorBytes p).toList ++ [p[8]] := by
  rw [packet_toList]
  rfl

/-- R103: the validator compares two bytes. -/
theorem checksumValid_iff {p : Packet} :
    checksumValid p = true ↔ checksum (interiorBytes p) = p[8] := beq_iff_eq

/-- R101(b): a packet's checksum holds exactly if its bytes 1 to 8 add up to 0. -/
theorem checksumValid_iff_sumBytes {p : Packet} :
    checksumValid p = true ↔ sumBytes p.toList.tail = 0 := by
  have hsum : sumBytes p.toList.tail = sumBytes (interiorBytes p).toList + p[8] := by
    rw [toList_tail_eq_interiorBytes, sumBytes_append]
    simp [sumBytes]
  rw [checksumValid_iff, checksum, complementPlusOne_eq_neg, hsum]
  exact neg_eq_iff_add_eq_zero

/-- R101(c): byte 0 is no interior byte. -/
theorem interiorBytes_set_zero (p : Packet) (b : Byte) :
    interiorBytes (p.set 0 b) = interiorBytes p := by
  simp [interiorBytes]

/-- R101(c): the validator does not read byte 0. -/
theorem checksumValid_set_zero (p : Packet) (b : Byte) :
    checksumValid (p.set 0 b) = checksumValid p := by
  simp [checksumValid, interiorBytes_set_zero]

/-- R102: a byte replaced in a list changes the sum by the difference of the two bytes. -/
theorem sumBytes_set_add (l : List Byte) {i : Nat} (h : i < l.length) (b : Byte) :
    sumBytes (l.set i b) + l[i] = sumBytes l + b := by
  induction l generalizing i with
  | nil => simp at h
  | cons a t ih =>
    cases i with
    | zero => simp only [List.set_cons_zero, List.getElem_cons_zero, sumBytes]; ring
    | succ i =>
      have ht := ih (Nat.lt_of_succ_lt_succ h)
      simp only [List.set_cons_succ, List.getElem_cons_succ, sumBytes]
      rw [add_assoc, ht, add_assoc]

/-- R102: with one of its bytes 1 to 8 replaced by another value, a packet loses its checksum. -/
theorem checksumValid_set_of_ne {p : Packet} {b : Byte} {i : Fin 9} (hi : i ≠ 0) (hb : b ≠ p[i])
    (hp : checksumValid p = true) : checksumValid (p.set i b) = false := by
  obtain ⟨j, rfl⟩ := Fin.exists_succ_eq.2 hi
  have htail : (p.set j.succ b).toList.tail = p.toList.tail.set j b := by
    simp [Vector.toList_set]
  have hsum := sumBytes_set_add p.toList.tail (i := j) (by simp) b
  rw [checksumValid_iff_sumBytes.1 hp] at hsum
  rw [Bool.eq_false_iff, Ne, checksumValid_iff_sumBytes, htail]
  intro hset
  rw [hset] at hsum
  exact hb (by simpa using hsum.symm)

/-! ### The header -/

/-- R104: the header test compares two bytes. -/
theorem headerValid_iff {p : Packet} {kind : Kind} :
    headerValid p kind = true ↔ p[0] = marker ∧ p[1] = kindCode kind := by
  simp [headerValid]

/-- R71: validity is the marker and the checksum. -/
theorem packetValid_iff {p : Packet} :
    packetValid p = true ↔ p[0] = marker ∧ checksumValid p = true := by
  simp [packetValid]

/-- R104: a packet that does not begin with the marker has no kind's header. -/
theorem headerValid_set_zero_of_ne {p : Packet} {b : Byte} (hb : b ≠ marker) (kind : Kind) :
    headerValid (p.set 0 b) kind = false := by
  simp [headerValid, hb]

/-! ### Requests and answers -/

/-- R80 to R82: what a well-formed operation is encoded to is its request. -/
theorem requestOf_encode {i : Instr} {cfg : Config} (h : i.wellFormed cfg = true) :
    RequestOf i (encode i) := fun rest => decodeOfEncode cfg i rest h

/-- R74: the two values of a kind operand. -/
theorem exists_kindCode {k : Byte} (h : k = 0x86 ∨ k = 0x85) : ∃ kind, k = kindCode kind := by
  rcases h with rfl | rfl
  · exact ⟨.final, rfl⟩
  · exact ⟨.raw, rfl⟩

variable {s : State}

/-- R103: CKVAL answers its verdict, in every state. -/
theorem exec_ckval (p : Packet) (s : State) :
    exec (.ckval p) s = respond (.value (verdict (checksumValid p))) s := rfl

/-- R104: HDRCHK of a kind answers its verdict, in every state. -/
theorem exec_hdrchk_kindCode (kind : Kind) (p : Packet) (s : State) :
    exec (.hdrchk (kindCode kind) p) s = respond (.value (verdict (headerValid p kind))) s :=
  requireKind_kindCode kind _

/-- R108: GENCMD of a kind answers the command ROM's packet, in every state. -/
theorem exec_gencmd_kindCode (kind : Kind) (s : State) :
    exec (.gencmd (kindCode kind)) s = respond (.value (.packet (romRead s.rom kind))) s :=
  requireKind_kindCode kind _

/-- R30, R108: with the ROM's contents, it is the kind's command. -/
theorem exec_gencmd_of_contents (kind : Kind) (hrom : s.rom = CommandRom.contents) :
    exec (.gencmd (kindCode kind)) s = respond (.value (.packet (romRead .contents kind))) s := by
  rw [exec_gencmd_kindCode, hrom]

/-- R106: CHECK of a kind is refused outside COMPLETE. -/
theorem exec_check_badPhase (kind : Kind) (h : s.phase ≠ .complete) :
    exec (.check (kindCode kind)) s = .refused .badPhase := by
  simp [exec, execCheck, requirePhase, h]

/-! ### Independence of the framing -/

/-- R110: an operation that always answers, from the command ROM alone, and does nothing else. -/
def AnswersFromRom (i : Instr) : Prop :=
  ∃ answer : CommandRom → Response, ∀ s, exec i s = respond (answer s.rom) s

/-- R110: the four codec operations other than CHECK are such operations. -/
theorem codec_answersFromRom (b : Seven) (p : Packet) (kind : Kind) {i : Instr}
    (hi : i ∈ [Instr.cksum b, .ckval p, .hdrchk (kindCode kind) p, .gencmd (kindCode kind)]) :
    AnswersFromRom i := by
  simp only [List.mem_cons, List.not_mem_nil, or_false] at hi
  rcases hi with rfl | rfl | rfl | rfl
  · exact ⟨fun _ => .value (.byte (checksum b)), fun _ => rfl⟩
  · exact ⟨fun _ => .value (verdict (checksumValid p)), exec_ckval p⟩
  · exact ⟨fun _ => .value (verdict (headerValid p kind)), exec_hdrchk_kindCode kind p⟩
  · exact ⟨fun rom => .value (.packet (romRead rom kind)), exec_gencmd_kindCode kind⟩

/-! ### A command echoed back -/

/-- R72: the row of the command that asks for a kind; `romRead .contents` is its packet. -/
def commandRow : Kind → Instr
  | .final => .readCo2
  | .raw => .readRawCo2

/-- R72: both commands are valid packets. -/
theorem packetValid_command (command : Kind) :
    packetValid (romRead .contents command) = true := by
  cases command <;> decide

/-- R109: byte 1 of a command is no kind's discriminator. -/
theorem headerValid_command (command kind : Kind) :
    headerValid (romRead .contents command) kind = false := by
  cases command <;> cases kind <;> decide

/-- R109: a command received whole in HUNT completes, as its only marker is its first byte. -/
theorem exec_commandRow_hunt (command : Kind) (hs : s.Inv) (hhunt : s.phase = .hunt)
    (hsize : payloadSize ≤ s.cfg.scratchSize) :
    exec (commandRow command) s = .next (completedState (romRead .contents command) s) := by
  have hm : marker ∉ (romRead .contents command).toList.tail := by cases command <;> decide
  have hp : (romRead .contents command).toList =
      marker :: (romRead .contents command).toList.tail := by cases command <;> rfl
  have hrow : exec (commandRow command) s =
      consumeChunk (romRead .contents command).toList s := by cases command <;> rfl
  rw [hrow]
  exact consumeChunk_packet_hunt hs hhunt hsize hp hm

/-- R106: a packet with a good checksum and another kind's header is an `InvalidPacket`. -/
theorem checkPacket_invalidPacket {kind : Kind} {p : Packet} (hc : checksumValid p = true)
    (hh : headerValid p kind = false) : checkPacket kind p s = fail .invalidPacket none s := by
  simp [checkPacket, hc, hh]

end Sys2Proof.Machine

section
open Sys2Proof Sys2Proof.Machine

/-- Settles O35: the value is the checksum, which is the negated sum. -/
theorem cksumResult : Obligations.CksumResult := fun _ b =>
  ⟨requestOf_encode (i := .cksum b) (cfg := {}) rfl, checksum b, rfl, toNat_checksum b⟩

/-- Settles O36: complement-and-add-1 is negation, and the sum modulo 256 is the exact sum's residue. -/
theorem checksumLaws : Obligations.ChecksumLaws := by
  refine ⟨fun x => ?_, fun p => ?_, fun p b => ?_⟩
  · rw [complementPlusOne_eq_neg, complementPlusOne_eq_neg, neg_neg]
  · rw [checksumValid_iff_sumBytes, ← toNat_sumBytes, BitVec.toNat_eq]
    rfl
  · rw [interiorBytes_set_zero]

/-- Settles O37: one byte replaced changes the sum of bytes 1 to 8, which was 0; byte 0 is in no sum, but
is the header's marker. -/
theorem singleByteChangeDetected : Obligations.SingleByteChangeDetected := by
  intro s p b hp
  obtain ⟨hmarker, hvalid⟩ := packetValid_iff.1 hp
  refine ⟨fun i hi hb => ?_, fun hb => ⟨?_, fun k hk => ?_⟩⟩
  · rw [exec_ckval, checksumValid_set_of_ne hi hb hvalid]
    rfl
  · rw [exec_ckval, checksumValid_set_zero, hvalid]
    rfl
  · obtain ⟨kind, rfl⟩ := exists_kindCode hk
    rw [exec_hdrchk_kindCode, headerValid_set_zero_of_ne (hmarker ▸ hb)]
    rfl

/-- Settles O40: the kind is checked before the phase, and the checksum before the header. -/
theorem checkResult : Obligations.CheckResult := by
  refine ⟨requestOf_encode (i := .check 0x86) (cfg := {}) rfl,
    requestOf_encode (i := .check 0x85) (cfg := {}) rfl,
    fun s k => ⟨fun hk p hphase hout => ?_, requireKind_bad, fun hk hphase => ?_⟩⟩
  · obtain ⟨kind, rfl⟩ := exists_kindCode hk
    rw [exec_check_complete kind hphase hout, checkPacket]
    simp only [← Bool.not_eq_true, checksumValid_iff, headerValid_iff]
    rfl
  · obtain ⟨kind, rfl⟩ := exists_kindCode hk
    exact exec_check_badPhase kind hphase

/-- Settles O42: each of the four answers from the command ROM alone, and no operation reads the last
response. -/
theorem codecIndependentOfFramer : Obligations.CodecIndependentOfFramer := by
  intro s b p k hk i hi
  obtain ⟨kind, rfl⟩ := exists_kindCode hk
  obtain ⟨answer, hexec⟩ := codec_answersFromRom b p kind hi
  refine ⟨⟨s.withResponse (some (answer s.rom)), hexec s, rfl, exec_withResponse s _⟩, fun u hu => ?_⟩
  rw [hexec u, hexec s, hu]
  rfl

/-- Settles O45: a command's byte 1 is no discriminator, so the packet framed from it passes the checksum
and fails the header. -/
theorem echoedCommandIsInvalidPacket : Obligations.EchoedCommandIsInvalidPacket := by
  intro s k hk
  obtain ⟨kind, rfl⟩ := exists_kindCode hk
  refine ⟨by decide, by decide, packetValid_command .final, packetValid_command .raw,
    fun p hp => ?_, fun hs hhunt hsize i hi => ?_⟩
  · obtain ⟨command, rfl⟩ : ∃ command, p = romRead .contents command := by
      rcases List.mem_pair.1 hp with rfl | rfl
      · exact ⟨.final, rfl⟩
      · exact ⟨.raw, rfl⟩
    rw [exec_hdrchk_kindCode, headerValid_command]
    rfl
  · obtain ⟨command, rfl⟩ : ∃ command, i = commandRow command := by
      rcases List.mem_pair.1 hi with rfl | rfl
      · exact ⟨.final, rfl⟩
      · exact ⟨.raw, rfl⟩
    have hcheck : exec (.check (kindCode kind)) (completedState (romRead .contents command) s) =
        fail .invalidPacket none (completedState (romRead .contents command) s) :=
      (exec_check_complete kind rfl rfl).trans (checkPacket_invalidPacket
        (packetValid_iff.1 (packetValid_command command)).2 (headerValid_command command kind))
    rw [execAll_cons (exec_commandRow_hunt command hs hhunt hsize), execAll_cons hcheck]
    rfl

/-- Settles O38: the verdict is the comparison of byte 8 with the checksum. -/
theorem ckvalResult : Obligations.CkvalResult := by
  intro s p
  refine ⟨requestOf_encode (i := .ckval p) (cfg := {}) rfl, ?_⟩
  rw [exec_ckval]
  simp only [verdict, checksumValid_iff]
  rfl

/-- Settles O39: the verdict is the comparison of bytes 0 and 1 with the marker and the kind. -/
theorem hdrchkResult : Obligations.HdrchkResult := by
  intro s k p
  refine ⟨requestOf_encode (i := .hdrchk 0x86 p) (cfg := {}) rfl,
    requestOf_encode (i := .hdrchk 0x85 p) (cfg := {}) rfl, fun hk => ?_, requireKind_bad⟩
  obtain ⟨kind, rfl⟩ := exists_kindCode hk
  rw [exec_hdrchk_kindCode]
  simp only [verdict, headerValid_iff]
  rfl

/-- Settles O41: the answer is the command ROM's packet, in every state. -/
theorem gencmdResult : Obligations.GencmdResult :=
  ⟨requestOf_encode (i := .gencmd 0x86) (cfg := {}) rfl,
    requestOf_encode (i := .gencmd 0x85) (cfg := {}) rfl,
    fun _ => ⟨fun hrom => ⟨exec_gencmd_of_contents .final hrom, exec_gencmd_of_contents .raw hrom⟩,
      fun _ => requireKind_bad⟩⟩

end

/-!
PROOFS. The statements of 41_framer.md: the framer's single operations, the chunk step by its first
comparison and the table of R143, the rescan windows, and what bytes the framer compares.
-/

namespace Sys2Proof.Machine

variable {s : State}

/-! ### The operations without a chunk -/

/-- R21: the phases in which framing is in progress. -/
theorem framingPhase_iff {ph : Phase} : framingPhase ph = true ↔ ph = .hunt ∨ ph = .accum := by
  cases ph <;> simp [framingPhase]

theorem framingPhase_eq_false_iff {ph : Phase} :
    framingPhase ph = false ↔ ph = .idle ∨ ph = .complete ∨ ph = .failed := by
  cases ph <;> simp [framingPhase]

/-- R84: with its argument accepted, an operation is refused wherever it is not legal. -/
theorem exec_badPhase {i : Instr} (harg : argumentRefusal? s.cfg i = none)
    (hphase : legalPhase i s.phase = false) : exec i s = .refused .badPhase :=
  (exec_refusesBy i s _).2 (.inr ⟨harg, hphase, rfl⟩)

/-- R130: START outside HUNT and ACCUM. -/
theorem exec_start_of_not_framing (h : framingPhase s.phase = false) :
    exec .start s = respond .ok (freshFraming .hunt s) := by
  rw [exec, execStart, h]
  rfl

/-- R148: EOF while framing. -/
theorem exec_eof_of_framing (h : framingPhase s.phase = true) :
    exec .eof s = fail .readingEOF none s := by
  rw [exec, execEof, h]
  rfl

/-- R149: RDERR while framing. -/
theorem exec_rderr_of_framing (cause : Cause) (h : framingPhase s.phase = true) :
    exec (.rderr cause) s = fail .reading (some cause) s := by
  rw [exec, execRderr, h]
  rfl

/-- R147: RDOUT in COMPLETE. -/
theorem exec_rdout_complete {p : Packet} (hphase : s.phase = .complete) (hout : s.out = some p) :
    exec .rdout s = respond (.value (.packet p)) s := by
  simp [exec, execRdout, hphase, hout, requirePhase]

/-- R26: outside COMPLETE no packet is held. -/
theorem State.Inv.out_eq_none_of_ne (hs : s.Inv) (h : s.phase ≠ .complete) : s.out = none := by
  simpa using mt hs.out_iff.1 h

/-- R28: outside FAILED no error is held. -/
theorem State.Inv.err_eq_none_of_ne (hs : s.Inv) (h : s.phase ≠ .failed) : s.err = none := by
  simpa using mt hs.err_iff.1 h

/-- R25, R26, R28: IDLE is a fresh framing already. -/
theorem freshFraming_idle (hs : s.Inv) (h : s.phase = .idle) : freshFraming .idle s = s := by
  obtain ⟨hcand, hneeded⟩ := hs.at_rest (by rw [h]; rfl)
  have hout : s.out = none := hs.out_eq_none_of_ne (by simp [h])
  have herr : s.err = none := hs.err_eq_none_of_ne (by simp [h])
  rw [freshFraming, ← h, ← hcand, ← hneeded, ← hout, ← herr]

/-! ### The status word -/

/-- R25: a candidate is shorter than a packet. -/
theorem State.Inv.cand_length_lt (hs : s.Inv) : s.cand.length < payloadSize := by
  cases hp : framingPhase s.phase with
  | true =>
    have hcount := hs.count hp
    have hneeded := hs.needed_range.1
    omega
  | false =>
    rw [(hs.at_rest hp).1]
    decide

/-- R28, R29: the error field is the number of the error held, and 0 where none is. -/
theorem errField?_of_inv (hs : s.Inv) :
    errField? s = some (s.err.elim 0 fun e => (errorNumber e.code).setWidth 4) := by
  by_cases hfailed : s.phase = .failed
  · obtain ⟨e, he⟩ := Option.isSome_iff_exists.1 (hs.err_iff.2 hfailed)
    rw [errField?, hfailed, he]
    rfl
  · rw [hs.err_eq_none_of_ne hfailed, errField?]
    cases hphase : s.phase with
    | failed => exact absurd hphase hfailed
    | idle | hunt | accum | complete => rfl

/-- R29, R146: the status word of a state of the invariant. -/
theorem exec_rdstat_of_inv (hs : s.Inv) :
    exec .rdstat s = respond (.value (.status (statusFields (phaseNumber s.phase)
      (BitVec.ofNat 4 s.needed) (s.err.elim 0 fun e => (errorNumber e.code).setWidth 4)
      (BitVec.ofNat 4 s.cand.length)))) s := by
  simp only [exec, execRdstat, statusWord?, errField?_of_inv hs, Option.map_some]

/-- R24, R25, R29: a count of at most nine fits its four bits. -/
theorem toNat_ofNat_four {n : Nat} (h : n ≤ payloadSize) : (BitVec.ofNat 4 n).toNat = n := by
  have h9 : n ≤ 9 := h
  rw [BitVec.toNat_ofNat]
  omega

/-! ### Passes of the loop -/

variable {policy : Rescan} {cand body tail : List Byte} {needed n : Nat}

/-- R138: a pass over a body of exactly the bytes needed is the last. -/
theorem boundaryLoop_equal (h : body.length = needed) :
    boundaryLoop policy (n + 1) cand needed body = some (.equal (cand ++ body)) := by
  rw [boundaryLoop, compareBody_equal h]

/-- R139: a pass over a shorter body is the last. -/
theorem boundaryLoop_less (h : body.length < needed) :
    boundaryLoop policy (n + 1) cand needed body =
      some (.less (cand ++ body) (needed - body.length)) := by
  rw [boundaryLoop, compareBody_less h]

/-- R140, R141: a longer body that begins at its only marker is compared again, with the empty
candidate, where there is a candidate to discard and the window reaches the marker. -/
theorem boundaryLoop_restart (hm : marker ∉ tail) (h : needed < (marker :: tail).length)
    (hr : cand ≠ [] ∧ restartAllowed policy (marker :: tail).length = true) :
    boundaryLoop policy (n + 1) cand needed (marker :: tail) =
      boundaryLoop policy n [] payloadSize (marker :: tail) := by
  rw [boundaryLoop, (compareBody_marked h hm).trans (if_pos hr)]

/-- R140: elsewhere it is discarded. -/
theorem boundaryLoop_discard (hm : marker ∉ tail) (h : needed < (marker :: tail).length)
    (hr : ¬(cand ≠ [] ∧ restartAllowed policy (marker :: tail).length = true)) :
    boundaryLoop policy (n + 1) cand needed (marker :: tail) = some .discard := by
  rw [boundaryLoop, (compareBody_marked h hm).trans (if_neg hr)]

/-- R142: no outcome of the loop asks for another pass. -/
theorem boundaryLoop_ne_restart {passes : Nat} {body' : List Byte} :
    boundaryLoop policy passes cand needed body ≠ some (.restart body') := by
  induction passes generalizing cand needed body with
  | zero => nofun
  | succ n ih =>
    rw [boundaryLoop]
    cases compareBody policy cand needed body with
    | restart body'' => exact ih
    | equal | less | discard => nofun

/-- R142: over a body as the detector selects it, every bound of two or more passes gives the same
outcome. -/
theorem boundaryLoop_settles (policy : Rescan) (cand : List Byte) (needed : Nat)
    (h : marker ∉ body ∨ BodyAtMarker body body) :
    ∃ o, ∀ n, boundaryLoop policy (n + 2) cand needed body = some o := by
  rcases h with hm | ⟨_, tail, -, hm, rfl⟩
  · simp only [boundaryLoop_unmarked hm]
    split_ifs <;> exact ⟨_, fun _ => rfl⟩
  · simp only [boundaryLoop_marked hm]
    split_ifs <;> exact ⟨_, fun _ => rfl⟩

/-! ### The first comparison -/

variable {c : List Byte}

/-- R138: nine bytes complete. -/
theorem settle_equal_completesWith {bytes : List Byte} (h : bytes.length = payloadSize) :
    CompletesWith bytes s (settle s (some (.equal bytes))) := settle_equal h

/-- R131 to R133: an accepted chunk is consumed by a chunk step. -/
theorem exec_chunk_of_accepted (hc : ChunkAccepted s c) : exec (.chunk c) s = chunkStep c s := by
  obtain ⟨hp, h1, h2⟩ := hc
  exact consumeChunk_ok h1 h2 hp

/-- R132, R133: a chunk is accepted under one policy as under another. -/
theorem ChunkAccepted.withRescan (hc : ChunkAccepted s c) :
    ChunkAccepted (s.withRescan policy) c := hc

/-- R135: a chunk without a marker is ignored where there is no candidate. -/
theorem exec_chunk_ignored (hc : ChunkAccepted s c) (hm : marker ∉ c) (hcand : s.cand = []) :
    IgnoresChunk s (exec (.chunk c) s) := by
  rw [exec_chunk_of_accepted hc, chunkStep_unmarked hm, if_pos hcand]
  rfl

/-- R136, R137: the candidate of the first comparison is the state's, or empty. -/
theorem FirstComparison.cand_eq (h : FirstComparison s c cand body) :
    cand = s.cand ∨ cand = [] := by
  rcases h with ⟨-, -, rfl, -⟩ | ⟨-, rfl⟩
  · exact .inl rfl
  · cases s.cfg.markerReset <;> simp

theorem FirstComparison.cand_length_lt (hs : s.Inv) (h : FirstComparison s c cand body) :
    cand.length < payloadSize := by
  rcases h.cand_eq with rfl | rfl
  · exact hs.cand_length_lt
  · decide

/-- R25(a): while framing, the count is what the candidate lacks. -/
theorem State.Inv.needed_eq (hs : s.Inv) (hp : framingPhase s.phase = true) :
    s.needed = payloadSize - s.cand.length := by
  have hcount := hs.count hp
  omega

/-- R136, R137: a chunk step is the loop begun with its first comparison. -/
theorem exec_chunk_of_firstComparison (hs : s.Inv) (hc : ChunkAccepted s c)
    (h : FirstComparison s c cand body) :
    exec (.chunk c) s =
      settle s (boundaryLoop s.cfg.rescan 2 cand (payloadSize - cand.length) body) := by
  rw [exec_chunk_of_accepted hc]
  rcases h with ⟨hm, hcand, rfl, rfl⟩ | ⟨⟨pre, tail, rfl, hm, rfl⟩, rfl⟩
  · rw [chunkStep_unmarked hm, if_neg hcand, hs.needed_eq hc.1]
  · rw [chunkStep_marked hm, hs.needed_eq hc.1]
    cases s.cfg.markerReset <;> rfl

/-- R138: a first comparison with a body of exactly the bytes needed completes the packet. -/
theorem exec_chunk_completes (hs : s.Inv) (hc : ChunkAccepted s c)
    (h : FirstComparison s c cand body) (hlen : body.length = payloadSize - cand.length) :
    CompletesWith (cand ++ body) s (exec (.chunk c) s) := by
  have hcand := h.cand_length_lt hs
  rw [exec_chunk_of_firstComparison hs hc h, boundaryLoop_equal hlen]
  exact settle_equal_completesWith (by rw [List.length_append]; omega)

/-- R139: a first comparison with a shorter body leaves candidate and body. -/
theorem exec_chunk_accumulates (hs : s.Inv) (hc : ChunkAccepted s c)
    (h : FirstComparison s c cand body) (hlen : body.length < payloadSize - cand.length) :
    AccumulatesTo (cand ++ body) s (exec (.chunk c) s) := by
  rw [exec_chunk_of_firstComparison hs hc h, boundaryLoop_less hlen, AccumulatesTo,
    List.length_append, Nat.sub_add_eq]
  rfl

/-- R140: a first comparison with a longer body without a marker discards everything. -/
theorem exec_chunk_discards_unmarked (hs : s.Inv) (hc : ChunkAccepted s c)
    (h : FirstComparison s c cand body) (hm : marker ∉ body)
    (hlen : payloadSize - cand.length < body.length) : DiscardsAll s (exec (.chunk c) s) := by
  rw [exec_chunk_of_firstComparison hs hc h, boundaryLoop_unmarked hm, if_neg (by omega),
    if_neg (by omega)]
  rfl

/-- R141: a first comparison with a longer body at the last marker restarts with that body, where a
restart is allowed. -/
theorem exec_chunk_restarts (hs : s.Inv) (hc : ChunkAccepted s c)
    (h : FirstComparison s c cand body) (hb : BodyAtMarker c body)
    (hlen : payloadSize - cand.length < body.length)
    (hr : cand ≠ [] ∧ restartAllowed s.cfg.rescan body.length = true) :
    exec (.chunk c) s = settle s (boundaryLoop s.cfg.rescan 1 [] payloadSize body) := by
  obtain ⟨pre, tail, -, hm, rfl⟩ := hb
  rw [exec_chunk_of_firstComparison hs hc h, boundaryLoop_restart hm hlen hr]

/-- R140: and discards everything where none is. -/
theorem exec_chunk_discards_marked (hs : s.Inv) (hc : ChunkAccepted s c)
    (h : FirstComparison s c cand body) (hb : BodyAtMarker c body)
    (hlen : payloadSize - cand.length < body.length)
    (hr : ¬(cand ≠ [] ∧ restartAllowed s.cfg.rescan body.length = true)) :
    DiscardsAll s (exec (.chunk c) s) := by
  obtain ⟨pre, tail, -, hm, rfl⟩ := hb
  rw [exec_chunk_of_firstComparison hs hc h, boundaryLoop_discard hm hlen hr]
  rfl

/-- R136: the body at the last marker begins at its own only marker. -/
theorem bodyAtMarker_cons (hm : marker ∉ tail) : BodyAtMarker (marker :: tail) (marker :: tail) :=
  ⟨[], tail, rfl, hm, rfl⟩

/-- R136: without P_MARKER_RESET the body at the last marker is compared with the state's
candidate. -/
theorem firstComparison_extend (h : BodyAtMarker c body) (hmr : s.cfg.markerReset = false) :
    FirstComparison s c s.cand body := .inr ⟨h, by simp [hmr]⟩

/-- R137: with P_MARKER_RESET it is compared with the empty candidate. -/
theorem firstComparison_fresh (h : BodyAtMarker c body) (hmr : s.cfg.markerReset = true) :
    FirstComparison s c [] body := .inr ⟨h, by simp [hmr]⟩

/-- R143: a chunk without a marker, with a candidate. -/
theorem exec_chunk_table_unmarked (hs : s.Inv) (hc : ChunkAccepted s c) (hm : marker ∉ c)
    (hcand : s.cand ≠ []) :
    if c.length = 9 - s.cand.length then CompletesWith (s.cand ++ c) s (exec (.chunk c) s)
    else if c.length < 9 - s.cand.length then AccumulatesTo (s.cand ++ c) s (exec (.chunk c) s)
    else DiscardsAll s (exec (.chunk c) s) := by
  have h : FirstComparison s c s.cand c := .inl ⟨hm, hcand, rfl, rfl⟩
  rcases lt_trichotomy c.length (9 - s.cand.length) with hlt | heq | hgt
  · rw [if_neg hlt.ne, if_pos hlt]
    exact exec_chunk_accumulates hs hc h hlt
  · rw [if_pos heq]
    exact exec_chunk_completes hs hc h heq
  · rw [if_neg hgt.ne', if_neg hgt.not_gt]
    exact exec_chunk_discards_unmarked hs hc h hm hgt

/-- R137, R141: a body at the last marker, compared with the empty candidate. -/
theorem settle_boundaryLoop_fresh (hb : BodyAtMarker c body) :
    if body.length = 9 then
      CompletesWith body s (settle s (boundaryLoop policy (n + 1) [] payloadSize body))
    else if body.length < 9 then
      AccumulatesTo body s (settle s (boundaryLoop policy (n + 1) [] payloadSize body))
    else DiscardsAll s (settle s (boundaryLoop policy (n + 1) [] payloadSize body)) := by
  obtain ⟨pre, tail, -, hm, rfl⟩ := hb
  rcases lt_trichotomy (marker :: tail).length 9 with hlt | heq | hgt
  · rw [if_neg hlt.ne, if_pos hlt, boundaryLoop_less (needed := payloadSize) hlt]
    rfl
  · rw [if_pos heq, boundaryLoop_equal (needed := payloadSize) heq]
    exact settle_equal_completesWith heq
  · rw [if_neg hgt.ne', if_neg hgt.not_gt,
      boundaryLoop_discard (needed := payloadSize) hm hgt (by simp)]
    rfl

/-- R143: a chunk with a marker, without P_MARKER_RESET. -/
theorem exec_chunk_table_extend (hs : s.Inv) (hc : ChunkAccepted s c) (hb : BodyAtMarker c body)
    (hmr : s.cfg.markerReset = false) :
    if body.length = 9 - s.cand.length then CompletesWith (s.cand ++ body) s (exec (.chunk c) s)
    else if body.length < 9 - s.cand.length then
      AccumulatesTo (s.cand ++ body) s (exec (.chunk c) s)
    else if s.cand ≠ [] ∧ restartAllowed s.cfg.rescan body.length = true ∧ body.length = 9 then
      CompletesWith body s (exec (.chunk c) s)
    else if s.cand ≠ [] ∧ restartAllowed s.cfg.rescan body.length = true ∧ body.length < 9 then
      AccumulatesTo body s (exec (.chunk c) s)
    else DiscardsAll s (exec (.chunk c) s) := by
  have h : FirstComparison s c s.cand body := firstComparison_extend hb hmr
  rcases lt_trichotomy body.length (9 - s.cand.length) with hlt | heq | hgt
  · rw [if_neg hlt.ne, if_pos hlt]
    exact exec_chunk_accumulates hs hc h hlt
  · rw [if_pos heq]
    exact exec_chunk_completes hs hc h heq
  · rw [if_neg hgt.ne', if_neg hgt.not_gt]
    by_cases hr : s.cand ≠ [] ∧ restartAllowed s.cfg.rescan body.length = true
    · rw [exec_chunk_restarts hs hc h hb hgt hr]
      simpa [hr] using settle_boundaryLoop_fresh hb
    · simp only [← and_assoc, hr, false_and, if_false]
      exact exec_chunk_discards_marked hs hc h hb hgt hr

/-- R143: a chunk with a marker, with P_MARKER_RESET. -/
theorem exec_chunk_table_fresh (hs : s.Inv) (hc : ChunkAccepted s c) (hb : BodyAtMarker c body)
    (hmr : s.cfg.markerReset = true) :
    if body.length = 9 then CompletesWith body s (exec (.chunk c) s)
    else if body.length < 9 then AccumulatesTo body s (exec (.chunk c) s)
    else DiscardsAll s (exec (.chunk c) s) := by
  rw [exec_chunk_of_firstComparison hs hc (firstComparison_fresh hb hmr)]
  exact settle_boundaryLoop_fresh hb

/-! ### The end of the loop -/

theorem settle_boundaryLoop_ne_thirdPass (policy : Rescan) (cand : List Byte) (needed : Nat)
    (h : marker ∉ body ∨ BodyAtMarker body body) :
    settle s (boundaryLoop policy 2 cand needed body) ≠ .fault .thirdPass := by
  obtain ⟨o, ho⟩ := boundaryLoop_settles policy cand needed h
  rw [ho 0]
  cases o with
  | equal bytes => rw [settle]; cases exactly? 9 bytes <;> nofun
  | less | discard => nofun
  | restart body' => exact absurd (ho 0) boundaryLoop_ne_restart

theorem chunkStep_ne_thirdPass (c : List Byte) : chunkStep c s ≠ .fault .thirdPass := by
  rcases marker_split c with hm | ⟨pre, tail, rfl, hm⟩
  · rw [chunkStep_unmarked hm]
    split_ifs
    · nofun
    · exact settle_boundaryLoop_ne_thirdPass _ _ _ (.inl hm)
  · rw [chunkStep_marked hm]
    split_ifs
    all_goals exact settle_boundaryLoop_ne_thirdPass _ _ _ (.inr (bodyAtMarker_cons hm))

/-- R142: no chunk asks for a third pass, in any state. -/
theorem consumeChunk_ne_thirdPass (c : List Byte) : consumeChunk c s ≠ .fault .thirdPass := by
  unfold consumeChunk requireLength requirePhase
  split_ifs
  · nofun
  · exact chunkStep_ne_thirdPass c
  · nofun

/-- R131, R87: a chunk step while framing holds the error record, and either waits, still framing,
or is done, in COMPLETE. -/
theorem ChunkEffect.waits_or_done {t : State} (h : ChunkEffect s t)
    (hp : framingPhase s.phase = true) :
    t.err = s.err ∧
      ((t.response = some .wait ∧ t.out = s.out ∧ framingPhase t.phase = true) ∨
        ∃ p, t.response = some (.done p) ∧ t.out = some p ∧ t.phase = .complete) := by
  cases h with
  | ignored _ => exact ⟨rfl, .inl ⟨rfl, rfl, hp⟩⟩
  | completed p => exact ⟨rfl, .inr ⟨p, rfl, rfl, rfl⟩⟩
  | extended cand needed => exact ⟨rfl, .inl ⟨rfl, rfl, rfl⟩⟩
  | discarded => exact ⟨rfl, .inl ⟨rfl, rfl, rfl⟩⟩

/-! ### Rescan windows -/

@[simp] theorem withRescan_cfg_markerReset :
    (s.withRescan policy).cfg.markerReset = s.cfg.markerReset := rfl
@[simp] theorem withRescan_cfg_rescan : (s.withRescan policy).cfg.rescan = policy := rfl
@[simp] theorem withRescan_cand : (s.withRescan policy).cand = s.cand := rfl
@[simp] theorem withRescan_needed : (s.withRescan policy).needed = s.needed := rfl

/-- R138 to R140: what the end of the loop writes does not depend on the policy. -/
theorem settle_withRescan (s : State) (p q : Rescan) (o : Option Compared) :
    mapResult (State.withRescan p) (settle (s.withRescan q) o) = settle (s.withRescan p) o := by
  rcases o with _ | (bytes | _ | _ | _)
  case some.equal =>
    simp only [settle]
    cases exactly? 9 bytes <;> rfl
  all_goals rfl

theorem requireLength_mapResult (g : State → State) (c : List Byte) (k : Result) :
    mapResult g (requireLength s c k) = requireLength s c (mapResult g k) :=
  apply_ite (mapResult g) _ _ _

/-- The checks of a chunk do not read the policy. -/
theorem consumeChunk_withRescan (s : State) (p q : Rescan) (c : List Byte) :
    mapResult (State.withRescan p) (consumeChunk c (s.withRescan q)) =
      requireLength s c (requirePhase (framingPhase s.phase)
        (mapResult (State.withRescan p) (chunkStep c (s.withRescan q)))) := by
  rw [consumeChunk, requireLength_mapResult, ← requirePhase_mapResult]
  rfl

/-- R134 to R137: of a chunk with a marker, the policy decides the outcome of the loop alone. -/
theorem chunkStep_marked_withRescan (s : State) (p q : Rescan) (pre : List Byte)
    (hm : marker ∉ tail) :
    mapResult (State.withRescan p) (chunkStep (pre ++ marker :: tail) (s.withRescan q)) =
      if s.cfg.markerReset then
        settle (s.withRescan p) (boundaryLoop q 2 [] payloadSize (marker :: tail))
      else settle (s.withRescan p) (boundaryLoop q 2 s.cand s.needed (marker :: tail)) := by
  rw [chunkStep_marked hm, apply_ite (mapResult (State.withRescan p)), settle_withRescan,
    settle_withRescan]
  rfl

/-- R135, R139: of a chunk without a marker it decides nothing: there is no marker to restart at. -/
theorem chunkStep_unmarked_withRescan (s : State) (p q : Rescan) (hm : marker ∉ c) :
    mapResult (State.withRescan p) (chunkStep c (s.withRescan q)) =
      chunkStep c (s.withRescan p) := by
  rw [chunkStep_unmarked hm, chunkStep_unmarked hm, apply_ite (mapResult (State.withRescan p)),
    settle_withRescan, boundaryLoop_unmarked hm, boundaryLoop_unmarked hm]
  rfl

/-- R143: over this comparison, FULL restarts with a body that it then does not discard, and this
policy does not reach the marker. -/
def MissesRestart (policy : Rescan) (cand : List Byte) (needed len : Nat) : Prop :=
  cand ≠ [] ∧ restartAllowed policy len = false ∧ len ≤ payloadSize ∧ needed < len

/-- R143: elsewhere the loop ends as under FULL. -/
theorem boundaryLoop_eq_full (hm : marker ∉ tail)
    (h : ¬MissesRestart policy cand needed (marker :: tail).length) :
    boundaryLoop policy 2 cand needed (marker :: tail) =
      boundaryLoop .full 2 cand needed (marker :: tail) := by
  rw [boundaryLoop_marked hm, boundaryLoop_marked hm]
  cases hr : restartAllowed policy (tail.length + 1) with
  | true => rfl
  | false =>
    have hwhy : cand = [] ∨ payloadSize < tail.length + 1 ∨ tail.length + 1 ≤ needed := by
      simp only [MissesRestart, List.length_cons, hr, true_and, not_and, not_lt] at h
      by_contra! hno
      obtain ⟨hcand, hlen, hneeded⟩ := hno
      exact absurd (h hcand hlen) (not_le.2 hneeded)
    rcases hwhy with rfl | hlong | hfirst
    · simp
    · simp only [if_neg hlong.ne', if_neg hlong.not_gt, ite_self]
    · rcases hfirst.eq_or_lt with heq | hlt
      · rw [if_pos heq, if_pos heq]
      · rw [if_neg hlt.ne, if_neg hlt.ne, if_pos hlt, if_pos hlt]

theorem missesRestart_trailing {w len : Nat} :
    MissesRestart (.trailing w) cand needed len ↔
      cand ≠ [] ∧ w < len ∧ len ≤ payloadSize ∧ needed < len := by
  simp [MissesRestart, restartAllowed]

/-- R143: a window of at least a packet misses no restart. -/
theorem not_missesRestart_of_wide {w len : Nat} (hw : payloadSize ≤ w) :
    ¬MissesRestart (.trailing w) cand needed len := by
  rw [missesRestart_trailing]
  rintro ⟨-, hwlen, hlen, -⟩
  omega

/-- R143: where it misses a restart, it discards everything and FULL does not. -/
theorem settle_boundaryLoop_ne_full (hm : marker ∉ tail)
    (h : MissesRestart policy cand needed (marker :: tail).length) :
    settle s (boundaryLoop policy 2 cand needed (marker :: tail)) ≠
      settle s (boundaryLoop .full 2 cand needed (marker :: tail)) := by
  obtain ⟨hcand, hr, hlen, hneeded⟩ := h
  rw [boundaryLoop_discard hm hneeded (by rw [hr]; simp),
    boundaryLoop_restart hm hneeded ⟨hcand, rfl⟩]
  rcases hlen.lt_or_eq with hlt | heq
  · rw [boundaryLoop_less hlt]
    nofun
  · obtain ⟨p, -, hp⟩ := settle_equal (s := s) heq
    rw [boundaryLoop_equal heq, List.nil_append, hp]
    nofun

/-- R143: every window of at least a packet gives the answer of FULL. -/
theorem chunkStep_wide {w : Nat} (hw : payloadSize ≤ w) (c : List Byte) :
    mapResult (State.withRescan .full) (chunkStep c (s.withRescan (.trailing w))) =
      chunkStep c (s.withRescan .full) := by
  rcases marker_split c with hm | ⟨pre, tail, rfl, hm⟩
  · exact chunkStep_unmarked_withRescan s .full (.trailing w) hm
  · rw [chunkStep_marked_withRescan s _ _ pre hm, chunkStep_marked hm,
      boundaryLoop_eq_full hm (not_missesRestart_of_wide hw),
      boundaryLoop_eq_full hm (not_missesRestart_of_wide hw)]
    rfl

/-! ### Packets over several chunks -/

theorem execAll_singleton (i : Instr) (s : State) : execAll [i] s = exec i s := by
  rw [execAll]
  cases exec i s <;> rfl

/-- R136, R145: without P_MARKER_RESET a one-byte chunk extends the candidate, whatever the byte is;
only the first must be the marker. -/
theorem firstComparison_singleton {b : Byte} (hmr : s.cfg.markerReset = false)
    (h : s.cand = [] → b = marker) : FirstComparison s [b] s.cand [b] := by
  by_cases hb : b = marker
  · subst hb
    exact firstComparison_extend (bodyAtMarker_cons (by simp)) hmr
  · exact .inl ⟨by simpa using Ne.symm hb, mt h hb, rfl, rfl⟩

theorem chunkAccepted_singleton {b : Byte} (hp : framingPhase s.phase = true)
    (hsize : 1 ≤ s.cfg.scratchSize) : ChunkAccepted s [b] := ⟨hp, le_rfl, hsize⟩

/-- R145: bytes delivered one a chunk, as many as the candidate lacks, complete the candidate. -/
theorem execAll_oneByteChunks {b : Byte} {bs : List Byte} (hs : s.Inv)
    (hp : framingPhase s.phase = true) (hsize : 1 ≤ s.cfg.scratchSize)
    (hmr : s.cfg.markerReset = false) (hb : s.cand = [] → b = marker)
    (hlen : (b :: bs).length = payloadSize - s.cand.length) :
    CompletesWith (s.cand ++ b :: bs) s (execAll (oneByteChunks (b :: bs)) s) := by
  induction bs generalizing b s with
  | nil =>
    rw [oneByteChunks, List.map_singleton, execAll_singleton]
    exact exec_chunk_completes hs (chunkAccepted_singleton hp hsize)
      (firstComparison_singleton hmr hb) hlen
  | cons b' bs ih =>
    have hacc := exec_chunk_accumulates hs (chunkAccepted_singleton hp hsize)
      (firstComparison_singleton hmr hb) (by rw [← hlen]; simp)
    have ht := exec_inv hs hacc
    rw [oneByteChunks, List.map_cons, execAll_cons hacc]
    have hrest := ih (b := b') ht rfl hsize hmr (by simp)
      (by simp only [List.length_append, List.length_cons, List.length_nil] at hlen ⊢; omega)
    rw [List.append_assoc] at hrest
    exact hrest

/-! ### What bytes are compared -/

section MapBytes

variable (f : Byte → Byte)

/-- R151: an outcome of a pass with its bytes renamed. -/
def Compared.mapBytes : Compared → Compared
  | .equal packet => .equal (packet.map f)
  | .less cand needed => .less (cand.map f) needed
  | .discard => .discard
  | .restart body => .restart (body.map f)

@[simp] theorem mapBytes_cfg : (s.mapBytes f).cfg = s.cfg := rfl
@[simp] theorem mapBytes_cand : (s.mapBytes f).cand = s.cand.map f := rfl
@[simp] theorem mapBytes_needed : (s.mapBytes f).needed = s.needed := rfl

theorem exactly?_map (m : Nat) (l : List Byte) :
    exactly? m (l.map f) = (exactly? m l).map (Vector.map f) := by
  by_cases h : l.length = m <;> simp [exactly?, h]

theorem settle_mapBytes (s : State) (o : Option Compared) :
    settle (s.mapBytes f) (o.map (Compared.mapBytes f)) =
      mapResult (State.mapBytes f) (settle s o) := by
  rcases o with _ | (bytes | _ | _ | _)
  case some.equal =>
    simp only [Option.map_some, Compared.mapBytes, settle, exactly?_map]
    cases exactly? 9 bytes <;> rfl
  all_goals rfl

variable {f} (hf : ∀ b, f b = marker ↔ b = marker)
include hf

/-- R134: the search for the marker does not tell other bytes apart. -/
theorem lastIndexFrom_map (lo i : Nat) (l : List Byte) :
    lastIndexFrom marker lo i (l.map f) = lastIndexFrom marker lo i l := by
  induction l generalizing i with
  | nil => rfl
  | cons b t ih => simp only [List.map_cons, lastIndexFrom, ih, hf]

theorem lastIndexOf_map (lo : Nat) (l : List Byte) :
    lastIndexOf (l.map f) marker lo = lastIndexOf l marker lo := lastIndexFrom_map hf lo 0 l

theorem compareBody_map (policy : Rescan) (cand : List Byte) (needed : Nat) (body : List Byte) :
    compareBody policy (cand.map f) needed (body.map f) =
      (compareBody policy cand needed body).mapBytes f := by
  simp only [compareBody, List.length_map, List.isEmpty_map, lastIndexOf_map hf, ← List.map_append,
    ← List.map_drop]
  split_ifs
  · rfl
  · rfl
  · cases lastIndexOf body marker _ <;> rfl

theorem boundaryLoop_map (policy : Rescan) (passes : Nat) (cand : List Byte) (needed : Nat)
    (body : List Byte) :
    boundaryLoop policy passes (cand.map f) needed (body.map f) =
      (boundaryLoop policy passes cand needed body).map (Compared.mapBytes f) := by
  induction passes generalizing cand needed body with
  | zero => rfl
  | succ n ih =>
    simp only [boundaryLoop, compareBody_map hf]
    cases compareBody policy cand needed body with
    | restart body' => exact ih [] payloadSize body'
    | equal | less | discard => rfl

theorem chunkStep_map (s : State) (c : List Byte) :
    chunkStep (c.map f) (s.mapBytes f) = mapResult (State.mapBytes f) (chunkStep c s) := by
  have hempty : ∀ m body, boundaryLoop s.cfg.rescan m [] payloadSize (body.map f) =
      (boundaryLoop s.cfg.rescan m [] payloadSize body).map (Compared.mapBytes f) :=
    fun m => boundaryLoop_map hf _ m [] _
  simp only [chunkStep, lastIndexOf_map hf, mapBytes_cfg, mapBytes_cand, mapBytes_needed,
    List.map_eq_nil_iff, ← List.map_drop, boundaryLoop_map hf, hempty, settle_mapBytes]
  split <;> split_ifs <;> rfl

/-- R151: a chunk step carries bytes on, and compares them with the marker only. -/
theorem consumeChunk_map (s : State) (c : List Byte) :
    consumeChunk (c.map f) (s.mapBytes f) = mapResult (State.mapBytes f) (consumeChunk c s) := by
  rw [consumeChunk, consumeChunk, chunkStep_map hf, requireLength_mapResult,
    ← requirePhase_mapResult, requireLength, requireLength, List.length_map]
  rfl

end MapBytes

end Sys2Proof.Machine

section
open Sys2Proof Sys2Proof.Machine

/-- Settles O15: START is legal exactly where framing is not in progress. -/
theorem startResult : Obligations.StartResult := by
  refine ⟨requestOf_encode (i := .start) (cfg := {}) rfl, fun s => ⟨fun h => ?_, fun h => ?_⟩⟩
  · exact exec_start_of_not_framing (framingPhase_eq_false_iff.2 h)
  · exact exec_badPhase rfl (by rcases h with h | h <;> rw [h] <;> rfl)

/-- Settles O17: EOF is legal exactly while framing, where it is the error entry. -/
theorem eofResult : Obligations.EofResult :=
  ⟨requestOf_encode (i := .eof) (cfg := {}) rfl, fun _ =>
    ⟨fun h => exec_eof_of_framing (framingPhase_iff.2 h),
      fun h1 h2 => exec_badPhase rfl (by simp [legalPhase, h1, h2])⟩⟩

/-- Settles O18: RDERR is legal exactly while framing, where it is the error entry with its cause.
-/
theorem rderrResult : Obligations.RderrResult := fun _ cause =>
  ⟨requestOf_encode (i := .rderr cause) (cfg := {}) rfl,
    fun h => exec_rderr_of_framing cause (framingPhase_iff.2 h),
    fun h1 h2 => exec_badPhase rfl (by simp [legalPhase, h1, h2])⟩

/-- Settles O19: CANCEL writes a fresh framing, which an IDLE state of the invariant holds already.
-/
theorem cancelResult : Obligations.CancelResult := by
  refine ⟨requestOf_encode (i := .cancel) (cfg := {}) rfl, fun s => ⟨rfl, fun hs hidle => ?_⟩⟩
  rw [exec, execCancel, freshFraming_idle hs hidle]
  rfl

/-- Settles O20: each field of the status word is the state's, and the counts fit their four bits.
-/
theorem rdstatResult : Obligations.RdstatResult := by
  refine ⟨requestOf_encode (i := .rdstat) (cfg := {}) rfl, fun s hs => ?_⟩
  have hneeded := toNat_ofNat_four hs.needed_range.2
  have hcand := toNat_ofNat_four hs.cand_length_lt.le
  refine ⟨_, exec_rdstat_of_inv hs, ?_⟩
  rw [statusFields_phase, statusFields_reserved, statusFields_needed, statusFields_err,
    statusFields_candLen, hneeded, hcand]
  refine ⟨?_, rfl, rfl, ?_, rfl, fun haccum => ?_⟩
  · cases s.phase <;> rfl
  · rcases s.err with _ | ⟨code, cause⟩
    · rfl
    · cases code <;> rfl
  · have hcount := hs.count (by rw [haccum]; rfl)
    rwa [add_comm]

/-- Settles O21: RDOUT is legal in COMPLETE only, where `out` is answered. -/
theorem rdoutResult : Obligations.RdoutResult :=
  ⟨requestOf_encode (i := .rdout) (cfg := {}) rfl, fun _ =>
    ⟨fun _ => exec_rdout_complete, fun h => exec_badPhase rfl (by simp [legalPhase, h])⟩⟩

/-- Settles O22: the length is checked before the phase. -/
theorem chunkTurnedAway : Obligations.ChunkTurnedAway := by
  refine fun s c => ⟨fun h1 h2 hphase => ?_, fun h => ?_⟩
  · exact exec_badPhase (lengthRefusal?_eq_none h1 h2)
      (by rcases hphase with h | h | h <;> rw [h] <;> rfl)
  · exact (exec_refusesBy (.chunk c) s _).2 (.inl (if_pos h))

/-- Settles O23: there is no candidate to extend, so the chunk step only waits. -/
theorem unmarkedChunkIgnored : Obligations.UnmarkedChunkIgnored :=
  fun _ _ => exec_chunk_ignored

/-- Settles O24: the loop is begun with the first comparison, whose only pass completes nine bytes.
-/
theorem equalBodyCompletes : Obligations.EqualBodyCompletes :=
  fun _ _ _ _ => exec_chunk_completes

/-- Settles O25: the loop is begun with the first comparison, whose only pass appends the body. -/
theorem shorterBodyAccumulates : Obligations.ShorterBodyAccumulates := by
  intro s c cand body hs hc h hlen
  have hacc := exec_chunk_accumulates hs hc h hlen
  rw [AccumulatesTo, List.length_append, Nat.sub_add_eq] at hacc
  exact ⟨hacc, Nat.sub_pos_of_lt hlen⟩

/-- Settles O26: the first comparison is with a shorter, an equal or a longer body; a longer one at
its marker restarts, against the empty candidate, or is discarded. -/
theorem chunkClosedForm : Obligations.ChunkClosedForm := fun _ _ hs hc =>
  ⟨exec_chunk_ignored hc, exec_chunk_table_unmarked hs hc,
    fun _ => exec_chunk_table_extend hs hc, fun _ => exec_chunk_table_fresh hs hc⟩

/-- Settles O27: the loop's outcome over a body without a marker, or with its only marker in front,
does not depend on the bound, and is never a restart. -/
theorem chunkLoopRunsAtMostTwice : Obligations.ChunkLoopRunsAtMostTwice := by
  refine ⟨fun _ => consumeChunk_ne_thirdPass, fun policy cand body needed h => ?_⟩
  obtain ⟨o, ho⟩ := boundaryLoop_settles policy cand needed h
  refine ⟨o, fun passes hpasses => ?_⟩
  obtain ⟨n, rfl⟩ := Nat.exists_eq_add_of_le' hpasses
  exact ho n

/-- Settles O28: a count that adds up lets every chunk step answer, and the answer is one of the
four effects of a chunk step. -/
theorem chunkCompletesWithFrame : Obligations.ChunkCompletesWithFrame := by
  intro s c hs hc
  obtain ⟨t, ht⟩ := chunkStep_answers (hs.count hc.1) c
  obtain ⟨hrom, hcfg, hinbox⟩ := (chunkStep_next ht).sameSurroundings
  obtain ⟨herr, hresponse⟩ := (chunkStep_next ht).waits_or_done hc.1
  exact ⟨t, (exec_chunk_of_accepted hc).trans ht, hcfg, herr, hrom, hinbox, hresponse⟩

/-- Settles O29: a window of at least a packet misses no restart, so the loop ends as under FULL. -/
theorem wideWindowsAreFull : Obligations.WideWindowsAreFull := by
  intro s c w hw
  calc mapResult (State.withRescan .full) (consumeChunk c (s.withRescan (.trailing w)))
      = requireLength s c (requirePhase (framingPhase s.phase)
          (chunkStep c (s.withRescan .full))) := by
        rw [consumeChunk_withRescan, chunkStep_wide hw]
    _ = consumeChunk c (s.withRescan .full) := rfl

/-- Settles O30: the loops of the two policies part exactly where the window misses a restart; there
it discards everything, and FULL completes or accumulates. -/
theorem narrowWindowsDifferExactly : Obligations.NarrowWindowsDifferExactly := by
  intro s c B w hs hc hmr hb _
  obtain ⟨pre, tail, rfl, hm, rfl⟩ := hb
  rw [exec_chunk_of_accepted hc.withRescan, exec_chunk_of_accepted hc.withRescan,
    chunkStep_marked_withRescan s .full (.trailing w) pre hm, chunkStep_marked hm]
  simp only [withRescan_cfg_markerReset, hmr, Bool.false_eq_true, if_false, withRescan_cfg_rescan,
    withRescan_cand, withRescan_needed]
  rw [show 9 - s.cand.length = s.needed from (hs.needed_eq hc.1).symm]
  refine Iff.trans ⟨?_, settle_boundaryLoop_ne_full hm⟩ missesRestart_trailing
  exact fun hne => by_contra fun h => hne (by rw [boundaryLoop_eq_full hm h])

/-- Settles O31: the body at the last marker is the packet; it completes in the first comparison, or
after the restart that a wide window allows. -/
theorem latestPacketWins : Obligations.LatestPacketWins := by
  intro s earlier p hs hc hwide hhead hm
  have hp : p.toList = marker :: p.toList.tail := by
    rw [packet_toList, hhead]
    rfl
  have hb : BodyAtMarker (earlier ++ p.toList) p.toList :=
    ⟨earlier, p.toList.tail, by rw [← hp], hm, hp⟩
  have hnine : p.toList.length = 9 := p.length_toList
  cases hmr : s.cfg.markerReset with
  | true => simpa only [hnine, if_true] using exec_chunk_table_fresh hs hc hb hmr
  | false =>
    have htable := exec_chunk_table_extend hs hc hb hmr
    by_cases hcand : s.cand = []
    · simpa [hcand, hnine] using htable
    · have hpos := List.length_pos_iff.2 hcand
      rwa [hnine, if_neg (by omega), if_neg (by omega), if_pos ⟨hcand, hwide, rfl⟩] at htable

/-- Settles O32: nothing is collected in HUNT, and the body at the last marker is shorter than a
packet. -/
theorem markerInsidePacketMisframes : Obligations.MarkerInsidePacketMisframes := by
  intro s p before tail hs hhunt hsize hp hm hbefore
  obtain ⟨hframing, hcand⟩ := hs.hunt_iff.1 hhunt
  have hfirst : FirstComparison s p.toList [] (marker :: tail) :=
    .inr ⟨⟨before, tail, hp, hm, rfl⟩, by simp [hcand]⟩
  have hlen : before.length + (marker :: tail).length = 9 := by
    rw [← List.length_append, ← hp, p.length_toList]
  have hpos := List.length_pos_iff.2 hbefore
  refine exec_chunk_accumulates hs ⟨hframing, by simp, p.length_toList.trans_le hsize⟩ hfirst ?_
  simp only [List.length_nil, payloadSize]
  omega

/-- Settles O33: each byte before the last extends the candidate, by induction on the bytes still to
come. -/
theorem oneByteChunksFrameAnyPacket : Obligations.OneByteChunksFrameAnyPacket := by
  intro s p hs hhunt hsize hmr hhead
  obtain ⟨hframing, hcand⟩ := hs.hunt_iff.1 hhunt
  have hwhole := execAll_oneByteChunks (b := p[0]) (bs := p.toList.tail) hs hframing hsize hmr
    (fun _ => hhead) (by simp [hcand, payloadSize])
  rw [hcand, packet_toList] at hwhole
  rw [packet_toList]
  exact hwhole

/-- Settles O34: the marker search is blind to the renaming, and every pass of the loop commutes
with it. -/
theorem framerReadsOnlyMarkers : Obligations.FramerReadsOnlyMarkers :=
  fun _ s c hf => consumeChunk_map hf s c

end

/-!
PROOFS. The statements of 42_host_transaction.md: the request each read result becomes, what START
leaves, and an exchange in R171's two orders, by the one state from which both receive the packet.
-/

namespace Sys2Proof.Machine

variable {s t : State}

/-! ### Read results -/

/-- R53, R131: each packet row is the chunk of the packet it is decoded from. -/
theorem exec_of_decodePacket {p : Packet} {i : Instr} (h : decodePacket p = some i) (s : State) :
    exec i s = exec (.chunk p.toList) s := by
  cases i with
  | readCo2 => rw [decodePacket_eq_readCo2.1 h]; rfl
  | readRawCo2 => rw [decodePacket_eq_readRawCo2.1 h]; rfl
  | rspFinal tail => rw [decodePacket_eq_responseRow (kind := .final).1 h]; rfl
  | rspRaw tail => rw [decodePacket_eq_responseRow (kind := .raw).1 h]; rfl
  | start | chunk | eof | rderr | cancel | rdstat | rdout | cksum | ckval | hdrchk | check | gencmd =>
    unfold decodePacket at h
    split_ifs at h <;> cases h

/-- R172: a read of some bytes is performed as their CHUNK, under whatever name it is decoded. -/
theorem exec_decodeRead_bytes {c : List Byte} (hc : c ≠ []) (s : State) :
    exec (decodeRead (.bytes c)) s = exec (.chunk c) s := by
  obtain ⟨b, tail, rfl⟩ := List.exists_cons_of_ne_nil hc
  rw [decodeRead_bytes_cons]
  cases hrow : (exactly? 9 (b :: tail)).bind decodePacket with
  | none => rfl
  | some i =>
    obtain ⟨p, hp, hi⟩ := Option.bind_eq_some_iff.1 hrow
    rw [← exactly?_eq_some.1 hp]
    exact exec_of_decodePacket hi s

/-- R172: a step with a read result in front takes it, and performs the request it becomes. -/
theorem step_of_read {r : ReadResult} {rest : List Item} (h : s.inbox = .read r :: rest) :
    step s = exec (decodeRead r) { s with inbox := rest } :=
  stepRunsRequest s _ rest (by rw [h, fetch])

/-! ### The state START leaves -/

/-- R130: the state START leaves. -/
def startedState (s : State) : State := { freshFraming .hunt s with response := some .ok }

theorem exec_start_of_legal (h : legalPhase .start s.phase = true) :
    exec .start s = .next (startedState s) := by
  refine exec_start_of_not_framing ?_
  revert h
  cases s.phase <;> decide

/-- R180: what START leaves depends on the parameters, the ROM and the interface only. -/
theorem startedState_eq (h : SameSurroundings s t) : startedState t = startedState s := by
  obtain ⟨hrom, hcfg, hinbox⟩ := h
  simp only [startedState, freshFraming, hrom, hcfg, hinbox]

/-! ### The steps of an exchange -/

/-- R108, R110: the state GENCMD leaves, in which only the response is new. -/
def commandState (kind : Kind) (s : State) : State :=
  s.withResponse (some (.value (.packet (romRead s.rom kind))))

section Steps

variable {kind : Kind} {p : Packet} {r : ReadResult} {reads : List ReadResult}

/-- A request that answers hands its state on to what the host does next. -/
theorem issue_next {α : Type} {i : Instr} {stop : Result → α} {next : State → α}
    (h : exec i s = .next t) : issue i s stop next = next t := by
  rw [issue, h]

/-- R171 step 1: GENCMD always gives the ROM's command. -/
theorem obtainCommand_eq (kind : Kind) (s : State) (next : State → TransactionEnd) :
    obtainCommand kind s next = (some (romRead s.rom kind), next (commandState kind s)) :=
  issue_next (exec_gencmd_kindCode kind s)

/-- R171 step 5: the first read's request overwrites the last response, which nothing has read. -/
theorem receivePacket_withResponse (hreads : reads ≠ []) (last : Option Response) :
    receivePacket kind reads (s.withResponse last) = receivePacket kind reads s := by
  obtain ⟨r, rest, rfl⟩ := List.exists_cons_of_ne_nil hreads
  rw [receivePacket, receivePacket, issue, issue, exec_withResponse]

/-- R171 step 5: a read answered DONE ends the reading. -/
theorem receivePacket_of_completed (h : exec (decodeRead r) s = .next (completedState p s)) :
    receivePacket kind (r :: reads) s = validatePacket kind (completedState p s) := by
  rw [receivePacket, issue_next h]
  rfl

/-- R171 steps 6 and 7, R106: a valid packet of the kind is handed over. -/
theorem validatePacket_of_valid (hvalid : packetValid p = true) (hkind : p[1] = kindCode kind) :
    validatePacket kind (completedState p s) =
      .handed p ((completedState p s).withResponse (some .ok)) := by
  obtain ⟨hmarker, hsum⟩ := packetValid_iff.1 hvalid
  have hcheck : exec (.check (kindCode kind)) (completedState p s) =
      .next ((completedState p s).withResponse (some .ok)) := by
    rw [exec_check_complete kind rfl rfl, checkPacket, hsum, headerValid_iff.2 ⟨hmarker, hkind⟩]
    rfl
  rw [validatePacket, issue_next hcheck]
  rfl

/-- R144: a wide window completes with the packet that a chunk ends with. -/
theorem exec_chunk_latestPacket {earlier : List Byte} (hs : s.Inv)
    (hc : ChunkAccepted s (earlier ++ p.toList)) (hwide : wideRescan s.cfg.rescan = true)
    (hhead : p[0] = marker) (hm : marker ∉ p.toList.tail) :
    exec (.chunk (earlier ++ p.toList)) s = .next (completedState p s) := by
  obtain ⟨q, hq, hexec⟩ := latestPacketWins s earlier p hs hc hwide hhead hm
  obtain rfl := Vector.toList_inj.1 hq
  exact hexec

end Steps

/-! ### A whole exchange -/

section Exchange

variable (kind : Kind) (writeError flushError : Option Cause) (reads : List ReadResult)

/-- R171: the steps as listed, up to the end of the flush. -/
theorem transaction_commandFirst (s : State) :
    transaction .commandFirst kind writeError flushError reads s =
      (some (romRead s.rom kind), sendCommand writeError flushError (commandState kind s) fun u =>
        issue .start u .stopped (receivePacket kind reads)) := by
  rw [transaction, obtainCommand_eq]

variable (h : legalPhase .start s.phase = true)
include h

/-- R171: with START in the place of step 1, the command goes out from the state START left. -/
theorem transaction_startFirst :
    transaction .startFirst kind writeError flushError reads s =
      (some (romRead s.rom kind), sendCommand writeError flushError
        (commandState kind (startedState s)) (receivePacket kind reads)) := by
  rw [transaction, issue_next (exec_start_of_legal h), obtainCommand_eq]
  rfl

/-- R171: with no write or flush failing, the packet is received from the state START leaves, since
GENCMD changes the response only, which START overwrites. -/
theorem transaction_commandFirst_sent :
    transaction .commandFirst kind none none reads s =
      (some (romRead s.rom kind), receivePacket kind reads (startedState s)) := by
  have hstart : exec .start (commandState kind s) = .next (startedState s) := exec_start_of_legal h
  rw [transaction_commandFirst, sendCommand, issue_next hstart]

/-- R171: in either order, once a read has returned, the packet is received from the state START
leaves; with START first, GENCMD's response is left over, and the first read overwrites it. -/
theorem transaction_sent (order : TransactionOrder) (hreads : reads ≠ []) :
    transaction order kind none none reads s =
      (some (romRead s.rom kind), receivePacket kind reads (startedState s)) := by
  cases order with
  | commandFirst => exact transaction_commandFirst_sent kind reads h
  | startFirst =>
    rw [transaction_startFirst kind none none reads h, sendCommand, commandState,
      receivePacket_withResponse hreads]

end Exchange

end Sys2Proof.Machine

section
open Sys2Proof Sys2Proof.Machine

/-- Settles O9: a packet row's meaning is the chunk of its nine bytes, and every other name is the
request's own. -/
theorem readResultsBecomeRequests : Obligations.ReadResultsBecomeRequests := fun _ _ =>
  ⟨fun _ hc h => (step_of_read h).trans (exec_decodeRead_bytes hc _), step_of_read,
    fun _ => step_of_read⟩

/-- Settles O57: the packet is received from the state START leaves, where a wide window completes with
it and CHECK passes. -/
theorem cleanTransactionHandsPacketOver : Obligations.CleanTransactionHandsPacketOver := by
  intro order s kind earlier p hs hlegal hwide hlen hm hvalid hkind
  have hne : earlier ++ p.toList ≠ [] := by simp [packet_toList]
  have hstarted : (startedState s).Inv := exec_inv hs (exec_start_of_legal hlegal)
  have haccepted : ChunkAccepted (startedState s) (earlier ++ p.toList) :=
    ⟨rfl, List.length_pos_iff.2 hne, hlen⟩
  have hread := (exec_decodeRead_bytes hne _).trans
    (exec_chunk_latestPacket hstarted haccepted hwide (packetValid_iff.1 hvalid).1 hm)
  refine ⟨(completedState p (startedState s)).withResponse (some .ok), ?_, rfl, rfl⟩
  rw [transaction_sent kind _ hlegal order (List.cons_ne_nil _ _), receivePacket_of_completed hread,
    validatePacket_of_valid hvalid hkind, hs.rom_contents]

/-- Settles O59: an exchange goes on from the state START leaves, which carries nothing over. -/
theorem transactionsAreIndependent : Obligations.TransactionsAreIndependent := by
  intro s t kind writeError flushError reads hs ht hcfg hrom hinbox
  have hstarted : startedState s = startedState t := startedState_eq ⟨hrom, hcfg, hinbox⟩
  rw [transaction_commandFirst_sent kind reads hs, transaction_commandFirst_sent kind reads ht,
    transaction_startFirst kind _ _ reads hs, transaction_startFirst kind _ _ reads ht, hrom, hstarted]
  exact ⟨rfl, rfl⟩

/-- Settles O60: both orders receive the packet from the state START leaves, once a read has
overwritten GENCMD's response. -/
theorem transactionOrdersAgree : Obligations.TransactionOrdersAgree := by
  intro s kind reads hlegal hreads
  rw [transaction_sent kind reads hlegal .startFirst hreads,
    transaction_sent kind reads hlegal .commandFirst hreads]

/-- Settles O16: both states are left as the same fresh framing. -/
theorem startCarriesNothingOver : Obligations.StartCarriesNothingOver := by
  intro s t hs ht hcfg hrom hinbox
  refine ⟨startedState s, exec_start_of_legal hs, ?_⟩
  rw [exec_start_of_legal ht, startedState_eq ⟨hrom.symm, hcfg.symm, hinbox.symm⟩]

/-- Settles O58: the write and the flush come before any read, from the state GENCMD leaves, whose
framing is that of the state before it or, with START first, the one START leaves. -/
theorem hostErrorsComeFirst : Obligations.HostErrorsComeFirst := by
  refine fun s kind c flushError reads =>
    ⟨⟨commandState kind s, rfl, ?_, ?_⟩, fun h => ⟨commandState kind (startedState s), rfl, ?_, ?_⟩⟩
  · rw [transaction_commandFirst, sendCommand]
  · rw [transaction_commandFirst, sendCommand]
  · rw [transaction_startFirst kind _ _ reads h, sendCommand]
  · rw [transaction_startFirst kind _ _ reads h, sendCommand]

end

/-!
PROOFS. The statements of 60_exceptions.md: what enters FAILED and with which error, what leaves it, and
what is refused in it.
-/

namespace Sys2Proof.Machine

variable {s t : State} {i : Instr}

/-! ### Entering FAILED -/

/-- R205: of the effects of an operation, only the error entry enters FAILED. -/
theorem Effect.eq_failState (h : Effect s t) (hs : s.phase ≠ .failed) (ht : t.phase = .failed) :
    ∃ code cause, t = { failState code cause s with response := some (.error code cause) } := by
  cases h with
  | responded r => exact absurd ht hs
  | started _ => cases ht
  | cancelled => cases ht
  | failed code cause => exact ⟨code, cause, rfl⟩
  | chunk hp hc =>
    rcases hc.phase_after hp with hframing | hcomplete
    · rw [ht] at hframing; cases hframing
    · rw [ht] at hcomplete; cases hcomplete

/-- R200, R206: EOF, RDERR and CHECK have the only moves into FAILED of the transition table. -/
theorem raises_of_transition {ph : Phase} (h : transitionAllowed i ph .failed = true)
    (hne : ph ≠ .failed) : i = .eof ∨ (∃ cause, i = .rderr cause) ∨ ∃ k, i = .check k := by
  cases i with
  | eof => exact .inl rfl
  | rderr cause => exact .inr (.inl ⟨cause, rfl⟩)
  | check k => exact .inr (.inr ⟨k, rfl⟩)
  | start | chunk | cancel | rdout | readCo2 | readRawCo2 | rspFinal | rspRaw =>
    simp [transitionAllowed, framingPhase] at h
  | rdstat | cksum | ckval | hdrchk | gencmd => exact absurd (eq_of_beq h) hne

/-- R201: the validator's rejection is a mismatch of byte 8. -/
theorem checksumValid_eq_false {p : Packet} :
    checksumValid p = false ↔ p[8] ≠ checksum (interiorBytes p) := by
  rw [Bool.eq_false_iff, Ne, checksumValid_iff, eq_comm]

/-- R202: the header test's rejection is a mismatch of byte 0 or of byte 1. -/
theorem headerValid_eq_false {p : Packet} {kind : Kind} :
    headerValid p kind = false ↔ p[0] ≠ marker ∨ p[1] ≠ kindCode kind := by
  rw [Bool.eq_false_iff, Ne, headerValid_iff, not_and_or]

/-- R106, R201, R202: the packet checks that enter FAILED, each with its mismatch. -/
theorem checkPacket_raises {kind : Kind} {p : Packet} (h : checkPacket kind p s = .next t)
    (hs : s.phase ≠ .failed) (ht : t.phase = .failed) :
    (t.err = some ⟨.invalidChecksum, none⟩ ∧ p[8] ≠ checksum (interiorBytes p)) ∨
    (t.err = some ⟨.invalidPacket, none⟩ ∧ p[8] = checksum (interiorBytes p) ∧
      (p[0] ≠ marker ∨ p[1] ≠ kindCode kind)) := by
  rcases checkPacket_next h with ⟨hsum, hf⟩ | ⟨hsum, hheader, hf⟩ | ⟨-, -, rfl⟩
  · exact .inl ⟨by rw [fail_next.1 hf]; rfl, checksumValid_eq_false.1 hsum⟩
  · exact .inr ⟨by rw [fail_next.1 hf]; rfl, (checksumValid_iff.1 hsum).symm,
      headerValid_eq_false.1 hheader⟩
  · exact absurd ht hs

/-! ### In FAILED -/

/-- R210, R211: in FAILED an operation that is performed is START or CANCEL, or it answers only. -/
theorem exec_next_of_failed (hs : s.phase = .failed) (h : exec i s = .next t) :
    (i = .start ∧ t = startedState s) ∨
    (i = .cancel ∧ t = { freshFraming .idle s with response := some .ok }) ∨
      ∃ last, t = s.withResponse last := by
  have hmove := exec_transition h
  rw [hs] at hmove
  cases i with
  | start => exact .inl ⟨rfl, (execStart_next h).2⟩
  | cancel => exact .inr (.inl ⟨rfl, execCancel_next h⟩)
  | chunk | eof | rderr | rdout | check | readCo2 | readRawCo2 | rspFinal | rspRaw => cases hmove
  | rdstat | cksum | ckval | hdrchk | gencmd =>
    obtain ⟨ht, -⟩ := readOnlyOperationsRepeat s t _ h trivial
    exact .inr (.inr ⟨_, ht⟩)

end Sys2Proof.Machine

section
open Sys2Proof Sys2Proof.Machine

/-- Settles O47: of the effects an operation can have, only the error entry enters FAILED. -/
theorem failIsTheOnlyWayIntoFailed : Obligations.FailIsTheOnlyWayIntoFailed :=
  fun _ _ _ h hs ht => (exec_next h).eq_failState hs ht

/-- Settles O48: the transition table leaves EOF, RDERR and CHECK, and each one's own inversion lemma
gives its error and its condition. -/
theorem errorsRaisedBy : Obligations.ErrorsRaisedBy := by
  intro s t i _ h hs ht
  have hmove := exec_transition h
  rw [ht] at hmove
  rcases raises_of_transition hmove hs with rfl | ⟨cause, rfl⟩ | ⟨k, rfl⟩
  · obtain ⟨hp, rfl⟩ := execEof_next h
    exact .inr (.inr (.inl ⟨rfl, rfl, hp⟩))
  · obtain ⟨hp, rfl⟩ := execRderr_next h
    exact .inr (.inr (.inr ⟨cause, rfl, rfl, hp⟩))
  · obtain ⟨kind, p, rfl, -, hout, hc⟩ := execCheck_next h
    rcases checkPacket_raises hc hs ht with ⟨herr, hsum⟩ | ⟨herr, hsum, hheader⟩
    · exact .inl ⟨herr, _, p, rfl, hout, hsum⟩
    · exact .inr (.inl ⟨herr, _, p, rfl, hout, hsum, hheader⟩)

/-- Settles O49: what is performed in FAILED is START, CANCEL, or an operation that answers only. -/
theorem failedLeftOnlyByStartOrCancel : Obligations.FailedLeftOnlyByStartOrCancel := by
  intro s t i hs h
  rcases exec_next_of_failed hs h with ⟨hi, rfl⟩ | ⟨hi, rfl⟩ | ⟨last, rfl⟩
  · exact .inl ⟨hi, rfl⟩
  · exact .inr (.inl ⟨hi, rfl⟩)
  · exact .inr (.inr ⟨hs, rfl⟩)

/-- Settles O50: none of the five is legal in FAILED, and a well-formed argument passes its check, so
the phase is what refuses them. -/
theorem errorsDoNotNest : Obligations.ErrorsDoNotNest := by
  intro s i hs hi hraises
  have refused : argumentRefusal? s.cfg i = none → legalPhase i .failed = false →
      exec i s = .refused .badPhase := fun harg hphase => exec_badPhase harg (hs ▸ hphase)
  cases i with
  | chunk c =>
    simp only [Instr.wellFormed, Bool.and_eq_true, decide_eq_true_eq] at hi
    obtain ⟨⟨hpos, hsize⟩, -⟩ := hi
    exact refused (lengthRefusal?_eq_none hpos hsize) rfl
  | check k => exact refused (if_neg (Option.isSome_iff_ne_none.1 hi)) rfl
  | eof | rderr | rdout => exact refused rfl rfl
  | start | cancel | rdstat | cksum | ckval | hdrchk | gencmd | readCo2 | readRawCo2 | rspFinal
    | rspRaw => exact hraises.elim

end

/-!
PROOFS. The statements of 70_reset_and_hazards.md: where the reset input stands when the block takes it,
what waits, and what a step takes from the interface.
-/

namespace Sys2Proof

/-! ### What is taken from the interface -/

section Interface

variable {items rest : List Item} {w : Word} {op : Op} {arg : Byte} {n : Nat} {bs : List Byte}

/-- R84 step 1: behind an accepted request word its payload is collected. -/
theorem fetch_word_of_ok (hd : decodeWord w = .ok (op, arg)) :
    fetch (.word w :: rest) = decodeRequest op arg rest := by
  rw [fetch, hd]

/-- R80: a request of which payload bytes are missing is not complete. -/
theorem decodeRequest_missing_bytes (hs : payloadShape op arg = .bytes n) (hl : bs.length < n) :
    decodeRequest op arg (byteItems bs) = .unfinished := by
  simp only [decodeRequest, hs, takeBytes_incomplete hl]

/-- R80: RDERR without its cause is not complete. -/
theorem decodeRequest_missing_cause (hs : payloadShape op arg = .cause) :
    decodeRequest op arg [] = .unfinished := by
  simp only [decodeRequest, hs, takeCause]

/-- R230: payload bytes are cut short exactly by a reset behind fewer of them than the word asks for. -/
theorem takeBytes_eq_resetBy :
    takeBytes n items = .resetBy rest ↔
      ∃ bs : List Byte, bs.length < n ∧ items = byteItems bs ++ .reset :: rest := by
  refine ⟨fun h => ?_, fun ⟨bs, hl, hi⟩ => hi ▸ takeBytes_resetBy hl⟩
  induction n generalizing items with
  | zero => cases h
  | succ n ih =>
    rcases items with _ | ⟨_ | b | _ | _ | _, items⟩ <;> rw [takeBytes] at h
    case cons.byte =>
      cases ht : takeBytes n items with
      | resetBy r =>
        rw [ht] at h
        cases h
        obtain ⟨bs, hl, rfl⟩ := ih ht
        exact ⟨b :: bs, Nat.succ_lt_succ hl, rfl⟩
      | got | incomplete | malformed => simp [ht] at h
    case cons.reset => cases h; exact ⟨[], n.succ_pos, rfl⟩
    all_goals cases h

/-- R230: a cause is cut short exactly by a reset in its place. -/
theorem takeCause_eq_resetBy : takeCause items = .resetBy rest ↔ items = .reset :: rest := by
  rcases items with _ | ⟨_ | _ | _ | _ | _, items⟩ <;> simp [takeCause]

/-- R230: the places in which the block takes the reset input, with what the reset interrupts. -/
inductive ResetInFront (rest : List Item) : List Item → Prop where
  | alone : ResetInFront rest (.reset :: rest)
  | amongBytes {w : Word} {op : Op} {arg : Byte} {n : Nat} {bs : List Byte}
    (hd : decodeWord w = .ok (op, arg)) (hs : payloadShape op arg = .bytes n) (hl : bs.length < n) :
    ResetInFront rest (.word w :: (byteItems bs ++ .reset :: rest))
  | beforeCause {w : Word} {op : Op} {arg : Byte}
    (hd : decodeWord w = .ok (op, arg)) (hs : payloadShape op arg = .cause) :
    ResetInFront rest (.word w :: .reset :: rest)

theorem ofInstr?_ne_reset (i? : Option Instr) (r : List Item) :
    Fetched.ofInstr? i? r ≠ .reset rest := by
  cases i? <;> nofun

/-- A reset in the middle of a request stands in its payload. -/
theorem decodeRequest_eq_reset :
    decodeRequest op arg items = .reset rest ↔
      (∃ n, payloadShape op arg = .bytes n ∧ takeBytes n items = .resetBy rest) ∨
        (payloadShape op arg = .cause ∧ takeCause items = .resetBy rest) := by
  unfold decodeRequest
  cases payloadShape op arg with
  | none => simp [ofInstr?_ne_reset]
  | cause => cases takeCause items <;> simp
  | bytes n =>
    simp only [PayloadShape.bytes.injEq, exists_eq_left', reduceCtorEq, false_and, or_false]
    cases takeBytes n items <;> simp [ofInstr?_ne_reset]

/-- R230: the decoder finds a reset in these places, and in no other. -/
theorem fetch_eq_reset : fetch items = .reset rest ↔ ResetInFront rest items := by
  constructor
  · intro h
    rcases items with _ | ⟨w | _ | _ | _ | _, items⟩ <;> rw [fetch] at h
    case cons.word =>
      cases hd : decodeWord w with
      | error e => simp [hd] at h
      | ok opArg =>
        obtain ⟨op, arg⟩ := opArg
        simp only [hd, decodeRequest_eq_reset, takeBytes_eq_resetBy, takeCause_eq_resetBy] at h
        obtain ⟨n, hs, bs, hl, rfl⟩ | ⟨hs, rfl⟩ := h
        · exact .amongBytes hd hs hl
        · exact .beforeCause hd hs
    case cons.reset => cases h; exact .alone
    all_goals cases h
  · intro h
    cases h with
    | alone => rfl
    | amongBytes hd hs hl =>
      rw [fetch_word_of_ok hd, decodeRequest_eq_reset]
      exact .inl ⟨_, hs, takeBytes_resetBy hl⟩
    | beforeCause hd hs =>
      rw [fetch_word_of_ok hd, decodeRequest_eq_reset]
      exact .inr ⟨hs, rfl⟩

/-- A reset takes itself, and what it interrupts. -/
theorem ResetInFront.takes (h : ResetInFront rest items) :
    ∃ taken, taken ≠ [] ∧ items = taken ++ rest := by
  cases h with
  | alone => exact ⟨[.reset], nofun, rfl⟩
  | @amongBytes w _ _ _ bs => exact ⟨.word w :: (byteItems bs ++ [.reset]), nofun, by simp⟩
  | @beforeCause w => exact ⟨[.word w, .reset], nofun, rfl⟩

/-- A complete request takes its word and payload, or its read result. -/
theorem fetch_instr_takes {i : Instr} (h : fetch items = .instr i rest) :
    ∃ taken, taken ≠ [] ∧ items = taken ++ rest := by
  rcases items with _ | ⟨w | _ | _ | r | _, items⟩
  case cons.word =>
    obtain ⟨_, _, payload, -, -, rfl, -⟩ := fetch_word_instr h
    exact ⟨.word w :: payload, nofun, rfl⟩
  case cons.read => cases h; exact ⟨[.read r], nofun, rfl⟩
  all_goals cases h

end Interface

end Sys2Proof

namespace Sys2Proof.Machine

variable {s t : State} {rest : List Item}

/-! ### The steps that are no operation -/

/-- R238: with nothing presented the block waits. -/
theorem step_of_nothing_presented (h : s.inbox = []) : step s = .fault .awaitingRequest := by
  rw [step, h, fetch]

/-- R80: the block waits for the rest of a request. -/
theorem step_of_unfinished (h : fetch s.inbox = .unfinished) : step s = .fault .awaitingPayload := by
  rw [step, h]

/-- R230: wherever the reset input stands in front, the step is the reset. -/
theorem step_of_resetInFront (h : ResetInFront rest s.inbox) :
    step s = .next (resetInput s rest) := by
  rw [step, fetch_eq_reset.2 h]

/-- What a step leaves at the interface is what stands behind the request or the reset it took. -/
theorem step_leaves_rest (h : step s = .next t) :
    (∃ i, fetch s.inbox = .instr i t.inbox) ∨ fetch s.inbox = .reset t.inbox := by
  rcases step_next h with ⟨i, rest, hf, hi⟩ | ⟨rest, hf, rfl⟩
  · obtain ⟨-, -, hinbox⟩ := (exec_next hi).sameSurroundings
    exact .inl ⟨i, hinbox ▸ hf⟩
  · exact .inr hf

end Sys2Proof.Machine

section
open Sys2Proof Sys2Proof.Machine

/-- Settles O11: an empty interface and a payload that is not whole are no request to take, and a step
that is made leaves what stands behind the request or the reset it took. -/
theorem noStepWithoutInput : Obligations.NoStepWithoutInput := by
  refine fun s => ⟨step_of_nothing_presented, fun w op arg hd => ⟨fun n bs hs hl hi => ?_,
    fun hs hi => ?_⟩, fun t h => ?_⟩
  · refine step_of_unfinished ?_
    rw [hi, fetch_word_of_ok hd]
    exact decodeRequest_missing_bytes hs hl
  · refine step_of_unfinished ?_
    rw [hi, fetch_word_of_ok hd]
    exact decodeRequest_missing_cause hs
  · have htaken := step_leaves_rest h
    refine ⟨htaken, ?_⟩
    rcases htaken with ⟨i, hi⟩ | hr
    · exact fetch_instr_takes hi
    · exact (fetch_eq_reset.1 hr).takes

/-- Settles O13: each of the three is a place in which the decoder finds the reset, and the reset input
writes every field. -/
theorem resetInputDropsRequest : Obligations.ResetInputDropsRequest := by
  intro s rest h
  have hfront : ResetInFront rest s.inbox := by
    rcases h with hi | ⟨w, op, arg, n, bs, hd, hs, hl, hi⟩ | hi <;> rw [hi]
    · exact .alone
    · exact .amongBytes hd hs hl
    · exact .beforeCause (decodeWord_ok.2 ⟨rfl, fun _ => rfl⟩) rfl
  exact step_of_resetInFront hfront

/-- Settles O14: both leave a fresh framing in IDLE. -/
theorem resetLeavesWhatCancelLeaves : Obligations.ResetLeavesWhatCancelLeaves := by
  intro s rest h
  have hreset : step s = .next (resetInput s rest) := step_of_resetInFront (h ▸ .alone)
  have hcancel : exec .cancel s = .next { freshFraming .idle s with response := some .ok } := rfl
  exact ⟨_, _, hreset, hcancel, rfl⟩

end
